-- ==== Sys2Proof/Word.lean ====
section
/-! DEFINITION. The engine's one datum: the cell value.

A cell holds one signed integer and no instruction exposes a bit of it (spec/00_scope.md R6, R12;
spec/20_memory.md R55), so a cell value, an operand, the relative base and an I/O value are exact `Int`s;
that they fit `W` bits is an invariant, never a wrap. An index found not to be negative is a `Nat`: it
counts cells (spec/20_memory.md R52). -/

namespace Sys2Proof

/-- `INT_MIN = -2^(W-1)` (spec/00_scope.md R6). -/
def intMin (w : Nat) : Int := -((2 ^ (w - 1) : Nat) : Int)

/-- `INT_MAX = 2^(W-1) - 1` (spec/00_scope.md R6). -/
def intMax (w : Nat) : Int := ((2 ^ (w - 1) : Nat) : Int) - 1

/-- The value fits a cell of `w` bits (spec/00_scope.md R6). -/
def inRange (w : Nat) (v : Int) : Bool := decide (intMin w ≤ v) && decide (v ≤ intMax w)

end Sys2Proof
end

