-- ==== Sys2Proof/Config.lean ====
section
/-! DEFINITION. What an implementation fixes: the three parameters of spec/00_scope.md R6, R7, R8.

They are plain data that the machine carries unchanged (log entry 2), so every statement about
states is a statement about every choice of the parameters. -/

namespace Sys2Proof

/-- Parameter `RESERVED_DIGITS` (spec/00_scope.md R8): what the decoder does with decimal digits of
the word that the decode contract does not read. -/
inductive ReservedDigits where
  | fault    -- the default: such a digit that is not 0 raises IllegalMode
  | ignore   -- such digits are not examined
  deriving DecidableEq, Repr

/-- The parameters a model takes. -/
structure Params where
  /-- `W`, the cell width in bits (spec/00_scope.md R6): at least 64. -/
  width : Nat
  /-- `MEM_MAX`, the largest cell count the memory can reach (spec/00_scope.md R7): OPEN. -/
  memMax : Nat
  /-- `RESERVED_DIGITS` (spec/00_scope.md R8). -/
  reserved : ReservedDigits
  deriving DecidableEq, Repr

/-- The parameters of `State.reset`: `W = 64` and `RESERVED_DIGITS = fault` are the spec's defaults
(spec/00_scope.md R6, R8). DESIGN CHOICE (log entry 2), unsafe: `MEM_MAX` is OPEN; this is the
largest value R7 admits for `W = 64`, `INT_MAX - 4`. -/
def Params.default : Params :=
  { width := 64, memMax := 9223372036854775803, reserved := .fault }

end Sys2Proof
end

