-- ==== Sys2Proof/Syntax.lean ====
section
/-! DEFINITION. The instructions: an operation tag and, per operand slot, an addressing mode, and
nothing else (spec/40_decode_resolve_loop.md R114). The literals stay in memory. -/

namespace Sys2Proof

/-- An addressing mode (spec/30_encoding.md R85): decimal digit 0, 1 or 2. -/
inductive Mode where
  | position
  | immediate
  | relative
  deriving DecidableEq, Repr

/-- The ten operations of spec/30_encoding.md R88, each with the mode slots it consumes: `m1`, `m2`,
`m3` are the modes of slots 1, 2, 3. -/
inductive Instr where
  | add (m1 m2 m3 : Mode)   -- ADD, opcode 1
  | mul (m1 m2 m3 : Mode)   -- MUL, opcode 2
  | inp (m1 : Mode)         -- IN, opcode 3
  | out (m1 : Mode)         -- OUT, opcode 4
  | jt (m1 m2 : Mode)       -- JT, opcode 5
  | jf (m1 m2 : Mode)       -- JF, opcode 6
  | lt (m1 m2 m3 : Mode)    -- LT, opcode 7
  | eq (m1 m2 m3 : Mode)    -- EQ, opcode 8
  | arb (m1 : Mode)         -- ARB, opcode 9
  | halt                    -- HALT, opcode 99
  deriving DecidableEq, Repr

end Sys2Proof
end

