-- ==== Sys2Proof/WellFormed.lean ====
section
/-! DEFINITION. Well-formed instructions: the ones a program may contain.

The decoder accepts an Immediate destination and the resolver faults on it (spec/30_encoding.md R94);
"write-only operands never use Immediate", so an instruction with one is ill-formed. Every other
combination of modes is legal (R87). -/

namespace Sys2Proof

/-- A destination slot admits Position and Relative only (spec/30_encoding.md R87). -/
def Mode.destinationOk : Mode → Bool
  | .position => true
  | .immediate => false
  | .relative => true

/-- No destination slot of the instruction is Immediate (spec/30_encoding.md R87, R94). -/
def Instr.wf : Instr → Bool
  | .add _ _ m3 => m3.destinationOk
  | .mul _ _ m3 => m3.destinationOk
  | .inp m1 => m1.destinationOk
  | .out _ => true
  | .jt _ _ => true
  | .jf _ _ => true
  | .lt _ _ m3 => m3.destinationOk
  | .eq _ _ m3 => m3.destinationOk
  | .arb _ => true
  | .halt => true

end Sys2Proof
end

