-- ==== Sys2Proof/Decode.lean ====
section
/-! DEFINITION. The opcode decoder and the encoder (spec/30_encoding.md; spec/40_decode_resolve_loop.md
R110 to R114).

The encoding is decimal: the fields of a word are decimal digits, not bits. `decode` is a pure, total
function of the word and of the parameter `RESERVED_DIGITS` (R110). -/

namespace Sys2Proof

/-- Why the decoder rejects a word (spec/40_decode_resolve_loop.md R112, R113). -/
inductive Reject where
  | malformedOpcode   -- a negative word, or an operation code outside the fixed set
  | illegalMode       -- a used mode digit of 3 to 9, or a reserved digit that is not 0
  deriving DecidableEq, Repr

/-- `digit(w, i)`, the decimal digit of weight `10^i` (spec/00_scope.md R11). -/
def digit (w i : Nat) : Nat := w / 10 ^ i % 10

/-- The mode of a mode digit (spec/30_encoding.md R85, R91). -/
def modeOf : Nat → Except Reject Mode
  | 0 => .ok .position
  | 1 => .ok .immediate
  | 2 => .ok .relative
  | _ => .error .illegalMode

/-- The mode digit of a mode (spec/30_encoding.md R85). -/
def modeDigit : Mode → Nat
  | .position => 0
  | .immediate => 1
  | .relative => 2

/-- The check of the digits the contract does not read (spec/30_encoding.md R92): for an operation
of `n` operands these are the digits from place `n + 2` upward, mode digits of absent slots and `hi`
alike. Under `fault` they must all be 0; under `ignore` they are not examined. -/
def checkReserved (rd : ReservedDigits) (n w : Nat) (i : Instr) : Except Reject Instr :=
  match rd with
  | .fault => if w / 10 ^ (n + 2) = 0 then .ok i else .error .illegalMode
  | .ignore => .ok i

/-- One mode slot and then the reserved digits: format F1. -/
def decode1 (rd : ReservedDigits) (w : Nat) (mk : Mode → Instr) : Except Reject Instr := do
  let m1 ← modeOf (digit w 2)
  checkReserved rd 1 w (mk m1)

/-- Two mode slots and then the reserved digits: format F2. -/
def decode2 (rd : ReservedDigits) (w : Nat) (mk : Mode → Mode → Instr) : Except Reject Instr := do
  let m1 ← modeOf (digit w 2)
  let m2 ← modeOf (digit w 3)
  checkReserved rd 2 w (mk m1 m2)

/-- Three mode slots and then the reserved digits: format F3. -/
def decode3 (rd : ReservedDigits) (w : Nat) (mk : Mode → Mode → Mode → Instr) :
    Except Reject Instr := do
  let m1 ← modeOf (digit w 2)
  let m2 ← modeOf (digit w 3)
  let m3 ← modeOf (digit w 4)
  checkReserved rd 3 w (mk m1 m2 m3)

/-- The decode of a word that is not negative (spec/40_decode_resolve_loop.md R111): the operation
code first, then the used mode digits in slot order, then the reserved digits. -/
def decodeNat (rd : ReservedDigits) (w : Nat) : Except Reject Instr :=
  match w % 100 with
  | 1 => decode3 rd w .add
  | 2 => decode3 rd w .mul
  | 3 => decode1 rd w .inp
  | 4 => decode1 rd w .out
  | 5 => decode2 rd w .jt
  | 6 => decode2 rd w .jf
  | 7 => decode3 rd w .lt
  | 8 => decode3 rd w .eq
  | 9 => decode1 rd w .arb
  | 99 => checkReserved rd 0 w .halt
  | _ => .error .malformedOpcode

/-- `Decode(w)` (spec/40_decode_resolve_loop.md R111). A negative word is malformed and none of its
digits is examined (spec/30_encoding.md R93). -/
def decode (rd : ReservedDigits) (w : Int) : Except Reject Instr :=
  if w < 0 then .error .malformedOpcode else decodeNat rd w.toNat

/-- The operation code of an instruction (spec/30_encoding.md R88). -/
def Instr.opcode : Instr → Nat
  | .add _ _ _ => 1
  | .mul _ _ _ => 2
  | .inp _ => 3
  | .out _ => 4
  | .jt _ _ => 5
  | .jf _ _ => 6
  | .lt _ _ _ => 7
  | .eq _ _ _ => 8
  | .arb _ => 9
  | .halt => 99

/-- The modes of an instruction in slot order (spec/30_encoding.md R83). -/
def Instr.modes : Instr → List Mode
  | .add m1 m2 m3 => [m1, m2, m3]
  | .mul m1 m2 m3 => [m1, m2, m3]
  | .inp m1 => [m1]
  | .out m1 => [m1]
  | .jt m1 m2 => [m1, m2]
  | .jf m1 m2 => [m1, m2]
  | .lt m1 m2 m3 => [m1, m2, m3]
  | .eq m1 m2 m3 => [m1, m2, m3]
  | .arb m1 => [m1]
  | .halt => []

/-- How many cells the instruction occupies: its word and one literal per operand
(spec/30_encoding.md R81, R89). -/
def Instr.cells (i : Instr) : Nat := 1 + i.modes.length

/-- The mode digits as one number, slot 1 in the units place. -/
def modeField : List Mode → Nat
  | [] => 0
  | m :: ms => modeDigit m + 10 * modeField ms

/-- The word of an instruction as a natural number: `op + 100*m1 + 1000*m2 + 10000*m3`
(spec/30_encoding.md R83, R96). -/
def encodeNat (i : Instr) : Nat := i.opcode + 100 * modeField i.modes

/-- The word of an instruction. -/
def encode (i : Instr) : Int := (encodeNat i : Int)

/-- The cells of an instruction with its literals in slot order (spec/30_encoding.md R96: the word,
then one literal per operand). -/
def assemble (i : Instr) (literals : List Int) : List Int := encode i :: literals

/-- The instruction the decoder reads from a word given by its bits. The table's row numbers the
bits of the number `w`, and its operand cells get none (log entry 9), so the word is `w` itself and
`nbits` says nothing more; the reserved-digit rule is the default, `fault`. -/
def decodeTableWord (_nbits w : Nat) : Option Instr :=
  match decode .fault (w : Int) with
  | .ok i => some i
  | .error _ => none

end Sys2Proof
end

