-- ==== Sys2Proof/Machine/State.lean ====
section
/-! DEFINITION. The state of one engine (spec/10_state.md), as plain data, with the host's pending
moves beside it, and the reasons a step can stop. -/

namespace Sys2Proof.Machine

/-- `status`, the run-state register (spec/10_state.md R27). -/
inductive Status where
  | running
  | suspendedForInput    -- IN has emitted Read; `ioAddr` is valid
  | suspendedForOutput   -- OUT has emitted Write(v); `ioVal` is valid
  | halted               -- terminal
  | faulted              -- terminal; the fault record is valid
  deriving DecidableEq, Repr

/-- The fault causes (spec/60_exceptions.md R210). -/
inductive Cause where
  | malformedOpcode
  | outOfBounds
  | inputExhausted
  | growthBelowSize
  | illegalMode
  | overflow
  deriving DecidableEq, Repr

/-- An I/O event, engine to host (spec/42_input_output.md R150). -/
inductive Event where
  | read
  | write (v : Int)
  deriving DecidableEq, Repr

/-- A move of the host: the replies of spec/42_input_output.md R150, the growth request of
spec/20_memory.md R60, reset with an image (spec/70_reset_and_hazards.md R250), and one step by hand
(R253). -/
inductive HostMove where
  | reset (image : List Int)
  | grow (target : Int)
  | letStep
  | value (x : Int)
  | exhausted
  | ack
  deriving DecidableEq, Repr

/-- The host interface's faults: NONE. Every fatal condition of this spec has a described entry
(spec/60_exceptions.md R219) and is taken as a NEXT state with status Faulted (log entry 3), so no
step ends in a fault outcome. -/
inductive Fault where
  deriving DecidableEq, Repr

/-- Moves the spec says a model rejects at its boundary "without changing engine state"
(spec/93_implementation_defined.md, treatment `refuse`). No instruction's meaning refuses. -/
inductive Refusal where
  /-- An instruction without a meaning; no arm of `exec` raises it. Safe. -/
  | notModelled (mnemonic : String)
  /-- A reply the engine is not waiting for (`hostMove`; U10 of spec/93_implementation_defined.md,
  spec/42_input_output.md R162). Safe. -/
  | replyNotDue
  /-- A reply `Value(x)` with `x` outside the cell range (`hostMove`; U6, R159). Safe. -/
  | valueOutOfRange
  /-- An image with an integer outside the cell range (`bootImage`; U6, spec/30_encoding.md R80). Safe. -/
  | imageOutOfRange
  /-- An image longer than `MEM_MAX` (`bootImage`; U7, spec/00_scope.md R7). Safe. -/
  | imageTooLong
  /-- `Grow` to more than `MEM_MAX` cells (`growTo`; U7, spec/20_memory.md R65). Safe. -/
  | growBeyondMax
  /-- `Grow` after the first step or after the run's end (`hostMove`; U8, spec/20_memory.md R63). Safe. -/
  | growNotBeforeRun
  /-- The host looks at `mem`, `len`, `pc` or `rb` during a run (`HostPort` accessors; U13,
  spec/20_memory.md R73). Safe. -/
  | inspectDuringRun
  /-- The host looks at a cell that does not exist (`inspectCell`; spec/10_state.md R31). Safe. -/
  | noSuchCell
  /-- A read of the fault record while not Faulted, or of a latch outside its window (`HostPort`
  accessors; U14, spec/10_state.md R29, R32). Safe. -/
  | registerNotValid
  deriving DecidableEq, Repr

/-- The cells that do not hold 0, as (index, value) pairs, indices strictly rising; an unlisted index
below `len` holds 0, as a grown cell does (spec/20_memory.md R60; log entry 4). -/
abbrev Memory := List (Nat × Int)

/-- The whole state (spec/10_state.md, opening paragraph), the parameters, and the host's moves. -/
structure State where
  /-- The parameters of spec/00_scope.md R6, R7, R8; no transition changes them (log entry 2). -/
  params : Params
  /-- `mem` (spec/10_state.md R30). -/
  mem : Memory
  /-- `len`, the current cell count (R31). -/
  len : Nat
  /-- `pc`, the cursor (R21); it is never negative (R23). -/
  pc : Nat
  /-- `rb`, the relative base (R24). -/
  rb : Int
  /-- `status` (R27). -/
  status : Status
  /-- `FCAUSE` (R29), valid while Faulted. -/
  fcause : Cause
  /-- `FPC` (R29), valid while Faulted. -/
  fpc : Nat
  /-- `FADDR` (R29), valid while Faulted; an exact integer, whatever its size (log entries 6
  and 10). -/
  faddr : Int
  /-- `IO_ADDR` (R32), valid while SuspendedForInput. -/
  ioAddr : Nat
  /-- `IO_VAL` (R32), valid while SuspendedForOutput. -/
  ioVal : Int
  /-- The first step of the run has been taken (spec/20_memory.md R63; log entry 11). -/
  started : Bool
  /-- The model's own field, not the engine's: the host's moves still to be made, oldest first
  (spec/00_scope.md R9; log entry 1). -/
  inbox : List HostMove
  deriving DecidableEq, Repr

/-- The outcome of a transition of this machine. -/
abbrev Result := Host.Outcome State Fault Refusal

/-- The machine right after reset with the empty image (spec/10_state.md R36,
spec/70_reset_and_hazards.md R250; log entry 8), the host having made no move.
DESIGN CHOICE (log entry 5), unsafe: FCAUSE, FPC, FADDR, IO_ADDR and IO_VAL have "no defined value"
after reset; the model puts MalformedOpcode and 0 there, and the accessors of HostPort.lean refuse to
read them. -/
def State.reset : State :=
  { params := .default
    mem := []
    len := 0
    pc := 0
    rb := 0
    status := .running
    fcause := .malformedOpcode
    fpc := 0
    faddr := 0
    ioAddr := 0
    ioVal := 0
    started := false
    inbox := [] }

end Sys2Proof.Machine
end

