-- ==== Sys2Proof/Machine/Flags.lean ====
section
/-! DEFINITION. The engine has no flags, no condition codes and no predicate registers
(spec/10_state.md R26). What stands here is what takes their place: the truth value a
comparison stores (an overflow is a fault, `chk` of Ops.lean), and the constraints on the parameters. -/

namespace Sys2Proof.Machine

/-- The constraints the spec puts on the parameters (spec/00_scope.md R6, R7):
`W >= 64` and `1 <= MEM_MAX <= INT_MAX - 4`. -/
def paramsOk (p : Params) : Bool :=
  decide (64 ≤ p.width) && decide (1 ≤ p.memMax) && decide ((p.memMax : Int) ≤ intMax p.width - 4)

/-- What a comparison stores: exactly 1 or exactly 0 (spec/44_compare.md R190, R191). -/
def truth : Bool → Int
  | true => 1
  | false => 0

end Sys2Proof.Machine
end

