-- ==== Sys2Proof/Machine/Ops.lean ====
section
/-! DEFINITION. The named operations over memory and registers: the primitives of spec/00_scope.md
R13, fault entry (spec/60_exceptions.md R219), reset (spec/70_reset_and_hazards.md R250) and growth
(spec/20_memory.md R60). -/

namespace Sys2Proof.Machine

/-! ### Memory as data -/

/-- The value listed for an index; an unlisted index reads as 0 (log entry 4). -/
def Memory.get : Memory → Nat → Int
  | [], _ => 0
  | (b, v) :: m, a => if a = b then v else Memory.get m a

/-- Strike an index off the list: it then reads as 0. -/
def Memory.erase (m : Memory) (a : Nat) : Memory := m.filter (fun c => decide (c.1 ≠ a))

/-- List a value for an index at its place in the order. -/
def Memory.insert : Memory → Nat → Int → Memory
  | [], a, v => [(a, v)]
  | (b, w) :: m, a, v =>
    if a < b then (a, v) :: (b, w) :: m
    else if a = b then (a, v) :: m
    else (b, w) :: Memory.insert m a v

/-- Store one cell, keeping the canonical form: a cell that holds 0 is not listed. -/
def Memory.set (m : Memory) (a : Nat) (v : Int) : Memory :=
  if v = 0 then m.erase a else m.insert a v

/-- Strictly rising indices, all at least `lo`, and no listed 0. -/
def Memory.risingFrom : Nat → Memory → Bool
  | _, [] => true
  | lo, (a, v) :: m => decide (lo ≤ a) && decide (v ≠ 0) && Memory.risingFrom (a + 1) m

/-- The canonical form: equal memories are equal lists. -/
def Memory.wf (m : Memory) : Bool := Memory.risingFrom 0 m

/-- Every listed cell exists and holds a cell value (spec/20_memory.md R50, R52). -/
def Memory.fits (w len : Nat) (m : Memory) : Bool :=
  m.all (fun c => decide (c.1 < len) && inRange w c.2)

/-- The memory an image gives, from index `i` on (spec/70_reset_and_hazards.md R250: "loaded verbatim
at index 0"). -/
def Memory.ofImage : Nat → List Int → Memory
  | _, [] => []
  | i, v :: vs => if v = 0 then Memory.ofImage (i + 1) vs else (i, v) :: Memory.ofImage (i + 1) vs

/-! ### Raising -/

/-- A `raise <Cause>(info)` on its way to the fault entry (spec/00_scope.md R13). -/
structure Raise where
  cause : Cause
  info : Int
  deriving DecidableEq, Repr

/-- A computation that may raise; the first raise ends it (spec/00_scope.md R13). -/
abbrev Checked (α : Type) := Except Raise α

/-- FAULT ENTRY, the engine's one way of taking an exception (spec/60_exceptions.md R219): the record
is written, the status becomes Faulted, nothing else changes. There is no vector, no handler and no
return from it (R222): only `bootImage` makes the engine usable again. -/
def takeFault (r : Raise) (s : State) : State :=
  { s with fcause := r.cause, fpc := s.pc, faddr := r.info, status := .faulted }

/-- End a step: the state computed, or fault entry from the state before the step
(spec/60_exceptions.md R219: a faulting instruction has no partial effect). -/
def settle (s : State) (c : Checked State) : Result :=
  match c with
  | .ok t => .next t
  | .error r => .next (takeFault r s)

/-- The numeric code of a cause (spec/60_exceptions.md R210). -/
def causeCode : Cause → Nat
  | .malformedOpcode => 1
  | .outOfBounds => 2
  | .inputExhausted => 3
  | .growthBelowSize => 4
  | .illegalMode => 5
  | .overflow => 6

/-- The cause a decoder rejection raises (spec/40_decode_resolve_loop.md R112, R113). -/
def causeOf : Reject → Cause
  | .malformedOpcode => .malformedOpcode
  | .illegalMode => .illegalMode

/-! ### Memory access -/

/-- An index is valid: `0 <= a < len` (spec/20_memory.md R52). -/
def inBounds (s : State) (a : Int) : Bool := decide (0 ≤ a) && decide (a < (s.len : Int))

/-- `MemRead(a, 1)` (spec/00_scope.md R13). -/
def memRead (s : State) (a : Int) : Checked Int :=
  if inBounds s a then .ok (s.mem.get a.toNat) else .error ⟨.outOfBounds, a⟩

/-- `MemWrite(a, 1, v)` (spec/00_scope.md R13). -/
def memWrite (s : State) (a : Int) (v : Int) : Checked State :=
  if inBounds s a then .ok { s with mem := s.mem.set a.toNat v } else .error ⟨.outOfBounds, a⟩

/-- `Chk(v)` (spec/00_scope.md R12): the exact result if it fits a cell, else `Overflow` with the exact
result; never wrapped (spec/41_add_mul.md R142). -/
def chk (p : Params) (v : Int) : Checked Int :=
  if inRange p.width v then .ok v else .error ⟨.overflow, v⟩

/-- The cursor's advance, an instruction's last action (spec/10_state.md R22). -/
def advancePc (s : State) (n : Nat) : State := { s with pc := s.pc + n }

/-! ### Reset and growth -/

/-- The state `Reset(P)` leaves (spec/70_reset_and_hazards.md R250): the whole previous engine state is
discarded. The parameters are the machine's and stay; the host's later moves are the host's and stay. -/
def resetWith (image : List Int) (s : State) : State :=
  { s with
    mem := Memory.ofImage 0 image, len := image.length, pc := 0, rb := 0, status := .running,
    fcause := .malformedOpcode, fpc := 0, faddr := 0, ioAddr := 0, ioVal := 0, started := false }

/-- `Reset(P)`: images that are not possible inputs are refused (U6, U7 of
spec/93_implementation_defined.md; spec/00_scope.md R7; spec/30_encoding.md R80). -/
def bootImage (image : List Int) (s : State) : Result :=
  if image.length > s.params.memMax then .refused .imageTooLong
  else if image.all (inRange s.params.width) then .next (resetWith image s)
  else .refused .imageOutOfRange

/-- `Grow(n)` (spec/20_memory.md R60, R61, R62, R65): appended cells hold 0, which is what an unlisted
index reads as; below the current size it is a fault; above `MEM_MAX` it is refused.
DESIGN CHOICE (log entry 10), unsafe: a negative target is below every size, and FADDR then holds it exactly,
also where it lies below `-2^W` and does not fit the `W + 1` bits of spec/10_state.md R29. -/
def growTo (n : Int) (s : State) : Result :=
  if n < (s.len : Int) then .next (takeFault ⟨.growthBelowSize, n⟩ s)
  else if n > (s.params.memMax : Int) then .refused .growBeyondMax
  else .next { s with len := n.toNat }

end Sys2Proof.Machine
end

