-- ==== Sys2Proof/Machine/Operands.lean ====
section
/-! DEFINITION. The operand resolver (spec/40_decode_resolve_loop.md R115 to R121): every operand form
the spec gives, as a value and as a write address. -/

namespace Sys2Proof.Machine

/-- `Lit(k)`, the raw literal of slot `k` (spec/00_scope.md R13, R14). -/
def lit (s : State) (k : Nat) : Checked Int := memRead s ((s.pc : Int) + (k : Int))

/-- `ReadValue(m, k)`, the value of a source operand (spec/40_decode_resolve_loop.md R116). The sum
`rb + L` is exact (R117). -/
def readValue (s : State) (m : Mode) (k : Nat) : Checked Int := do
  let l ← lit s k
  match m with
  | .position => memRead s l
  | .immediate => .ok l
  | .relative => memRead s (s.rb + l)

/-- The bounds check that ends the resolution of a write address (spec/40_decode_resolve_loop.md R118). -/
def checkAddress (s : State) (a : Int) : Checked Nat :=
  if inBounds s a then .ok a.toNat else .error ⟨.outOfBounds, a⟩

/-- `ReadAddress(m, k)`, the write target of a destination operand (spec/40_decode_resolve_loop.md R118);
Immediate raises `IllegalMode` with the instruction word, after the literal cell has been checked (R119). -/
def readAddress (s : State) (m : Mode) (k : Nat) : Checked Nat := do
  let l ← lit s k
  match m with
  | .position => checkAddress s l
  | .immediate => .error ⟨.illegalMode, s.mem.get s.pc⟩
  | .relative => checkAddress s (s.rb + l)

/-- The common course of ADD, MUL, LT and EQ (spec/20_memory.md R54; spec/60_exceptions.md R217): two
source operands, the destination address, the operation (which may raise), the one write, `pc + 4`. -/
def storeResult (f : Int → Int → Checked Int) (m1 m2 m3 : Mode) (s : State) : Checked State := do
  let a ← readValue s m1 1
  let b ← readValue s m2 2
  let d ← readAddress s m3 3
  let r ← f a b
  let t ← memWrite s (d : Int) r
  .ok (advancePc t 4)

/-- A taken jump (spec/43_jumps.md R182): a negative target is out of bounds, any other is written to
the cursor, beyond the end of memory too. -/
def jumpTo (t : Int) (s : State) : Checked State :=
  if t < 0 then .error ⟨.outOfBounds, t⟩ else .ok { s with pc := t.toNat }

/-- The common course of JT and JF (spec/43_jumps.md R180, R181, R183): both operands are resolved
before the test, whether or not the jump is taken. -/
def jumpWhen (taken : Int → Bool) (m1 m2 : Mode) (s : State) : Checked State := do
  let c ← readValue s m1 1
  let t ← readValue s m2 2
  if taken c then jumpTo t s else .ok (advancePc s 3)

end Sys2Proof.Machine
end

