-- ==== Sys2Proof/Machine/Arith.lean ====
section
/-! DEFINITION. Arithmetic: ADD and MUL (spec/41_add_mul.md). -/

namespace Sys2Proof.Machine

/-- ADD, opcode 1 (spec/41_add_mul.md R140): the exact sum, or `Overflow` (R142). -/
def execAdd (m1 m2 m3 : Mode) (s : State) : Result :=
  settle s (storeResult (fun a b => chk s.params (a + b)) m1 m2 m3 s)

/-- MUL, opcode 2 (spec/41_add_mul.md R141): the exact product, or `Overflow` (R142). -/
def execMul (m1 m2 m3 : Mode) (s : State) : Result :=
  settle s (storeResult (fun a b => chk s.params (a * b)) m1 m2 m3 s)

end Sys2Proof.Machine
end

