-- ==== Sys2Proof/Machine/Compare.lean ====
section
/-! DEFINITION. Comparison: LT and EQ (spec/44_compare.md). -/

namespace Sys2Proof.Machine

/-- LT, opcode 7 (spec/44_compare.md R190): stores 1 if the first source is less than the second, as
signed integers, else 0. -/
def execLt (m1 m2 m3 : Mode) (s : State) : Result :=
  settle s (storeResult (fun a b => .ok (truth (decide (a < b)))) m1 m2 m3 s)

/-- EQ, opcode 8 (spec/44_compare.md R191): stores 1 if the sources are equal, else 0. -/
def execEq (m1 m2 m3 : Mode) (s : State) : Result :=
  settle s (storeResult (fun a b => .ok (truth (decide (a = b)))) m1 m2 m3 s)

end Sys2Proof.Machine
end

