-- ==== Sys2Proof/Machine/Halt.lean ====
section
/-! DEFINITION. HALT and the implicit halt (spec/46_halt.md). -/

namespace Sys2Proof.Machine

/-- The engine halts and nothing else changes (spec/46_halt.md R205, R207): the cursor is not advanced. -/
def enterHalted (s : State) : State := { s with status := .halted }

/-- HALT, opcode 99 (spec/46_halt.md R205). -/
def execHalt (s : State) : Result := .next (enterHalted s)

end Sys2Proof.Machine
end

