-- ==== Sys2Proof/Machine/InputOutput.lean ====
section
/-! DEFINITION. Input and output: the engine's halves of IN and OUT, and the completions the host's
reply brings (spec/42_input_output.md R151 to R158). -/

namespace Sys2Proof.Machine

/-- The first half of IN (spec/42_input_output.md R152): the destination is resolved and latched, the
engine suspends and `Read` is visible; the cursor stays on the IN word (R151). -/
def suspendForInput (m1 : Mode) (s : State) : Checked State := do
  let d ← readAddress s m1 1
  .ok { s with ioAddr := d, status := .suspendedForInput }

/-- The first half of OUT (spec/42_input_output.md R156): the value is resolved and latched, the engine
suspends and `Write(v)` is visible. -/
def suspendForOutput (m1 : Mode) (s : State) : Checked State := do
  let v ← readValue s m1 1
  .ok { s with ioVal := v, status := .suspendedForOutput }

/-- IN, opcode 3, the engine's step (spec/42_input_output.md R152). -/
def execIn (m1 : Mode) (s : State) : Result :=
  settle s (suspendForInput m1 s)

/-- OUT, opcode 4, the engine's step (spec/42_input_output.md R156). -/
def execOut (m1 : Mode) (s : State) : Result :=
  settle s (suspendForOutput m1 s)

/-- IN, completion with a value (spec/42_input_output.md R154). The write cannot fault in a state that
meets the invariant: `IO_ADDR` was checked and `len` has not changed. -/
def storeInput (x : Int) (s : State) : Checked State := do
  let t ← memWrite s (s.ioAddr : Int) x
  .ok { advancePc t 2 with status := .running }

/-- IN, completion without a value (spec/42_input_output.md R155): `InputExhausted(IO_ADDR)`. -/
def inputExhausted (s : State) : State :=
  takeFault ⟨.inputExhausted, (s.ioAddr : Int)⟩ s

/-- OUT, completion (spec/42_input_output.md R158). -/
def outputTaken (s : State) : State :=
  { advancePc s 2 with status := .running }

end Sys2Proof.Machine
end

