-- ==== Sys2Proof/Machine/Jumps.lean ====
section
/-! DEFINITION. Control transfer: JT and JF (spec/43_jumps.md). -/

namespace Sys2Proof.Machine

/-- JT, opcode 5 (spec/43_jumps.md R180): jumps when the condition is not 0. -/
def execJt (m1 m2 : Mode) (s : State) : Result :=
  settle s (jumpWhen (fun c => decide (c ≠ 0)) m1 m2 s)

/-- JF, opcode 6 (spec/43_jumps.md R181): jumps when the condition is 0. -/
def execJf (m1 m2 : Mode) (s : State) : Result :=
  settle s (jumpWhen (fun c => decide (c = 0)) m1 m2 s)

end Sys2Proof.Machine
end

