-- ==== Sys2Proof/Machine/RelativeBase.lean ====
section
/-! DEFINITION. The relative base: ARB (spec/45_adjust_relative_base.md). -/

namespace Sys2Proof.Machine

/-- The course of ARB (spec/45_adjust_relative_base.md R200): the operand is read with the old base,
the exact sum is checked (R201), then the base and the cursor are written. -/
def adjustBase (m1 : Mode) (s : State) : Checked State := do
  let v ← readValue s m1 1
  let r ← chk s.params (s.rb + v)
  .ok (advancePc { s with rb := r } 2)

/-- ARB, opcode 9 (spec/45_adjust_relative_base.md R200). -/
def execArb (m1 : Mode) (s : State) : Result :=
  settle s (adjustBase m1 s)

end Sys2Proof.Machine
end

