-- ==== Sys2Proof/Machine/Loop.lean ====
section
/-! DEFINITION. The execution loop (spec/40_decode_resolve_loop.md R122 to R126): the fetch and one step
of the engine. -/

namespace Sys2Proof.Machine

/-- Decode at the cursor: the instruction, or what the decoder raises, with the word as `info`
(spec/40_decode_resolve_loop.md R111, R112, R113). The cell is read as it stands now
(spec/20_memory.md R71). -/
def decodeAt (s : State) : Checked Instr :=
  match decode s.params.reserved (s.mem.get s.pc) with
  | .ok i => .ok i
  | .error r => .error ⟨causeOf r, s.mem.get s.pc⟩

/-- The first step of a run ends the time for growth (spec/20_memory.md R63). -/
def begin (s : State) : State := { s with started := true }

/-- `Step` on a Running engine once the run has begun (spec/40_decode_resolve_loop.md R122): past the end
of memory it halts without a fetch, else it fetches, decodes and dispatches. -/
def runStep (s : State) : Result :=
  if s.len ≤ s.pc then .next (enterHalted s)
  else match decodeAt s with
    | .ok i => exec i s
    | .error r => .next (takeFault r s)

/-- `Step`, in any status: in the four statuses other than Running it does nothing
(spec/40_decode_resolve_loop.md R123; U15 of spec/93_implementation_defined.md; log entry 12). -/
def engineStep (s : State) : Result :=
  match s.status with
  | .running => runStep (begin s)
  | _ => .next s

end Sys2Proof.Machine
end

