-- ==== Sys2Proof/Machine/HostPort.lean ====
section
/-! DEFINITION. The host's side of the engine (spec/42_input_output.md R150 to R162, spec/20_memory.md
R63, R73): the event the host sees, the moves it may make, and what it may inspect. A move the spec
says the host may not make is refused by name and changes nothing. -/

namespace Sys2Proof.Machine

/-- The outstanding event: at most one, described completely by `status` and the latch
(spec/10_state.md R34; spec/42_input_output.md R150, R151). -/
def State.event (s : State) : Option Event :=
  match s.status with
  | .suspendedForInput => some .read
  | .suspendedForOutput => some (.write s.ioVal)
  | _ => none

/-- Before the run: between reset and the first step (spec/20_memory.md R63). -/
def beforeRun (s : State) : Bool := decide (s.status = .running) && !s.started

/-- The end of a run (spec/40_decode_resolve_loop.md R126). -/
def ended (s : State) : Bool := decide (s.status = .halted) || decide (s.status = .faulted)

/-- The reply `Value(x)` (spec/42_input_output.md R154, R159). -/
def replyValue (x : Int) (s : State) : Result :=
  if s.status = .suspendedForInput then
    if inRange s.params.width x then settle s (storeInput x s) else .refused .valueOutOfRange
  else .refused .replyNotDue

/-- The reply `Exhausted` (spec/42_input_output.md R155). -/
def replyExhausted (s : State) : Result :=
  if s.status = .suspendedForInput then .next (inputExhausted s) else .refused .replyNotDue

/-- The reply `Ack` (spec/42_input_output.md R158). -/
def replyAck (s : State) : Result :=
  if s.status = .suspendedForOutput then .next (outputTaken s) else .refused .replyNotDue

/-- The growth request, which has a transition before the run only (spec/20_memory.md R63). -/
def requestGrowth (n : Int) (s : State) : Result :=
  if beforeRun s then growTo n s else .refused .growNotBeforeRun

/-- One move of the host (spec/42_input_output.md R162). Reset is possible in any status
(spec/70_reset_and_hazards.md R250). -/
def hostMove (m : HostMove) (s : State) : Result :=
  match m with
  | .reset image => bootImage image s
  | .grow n => requestGrowth n s
  | .letStep => engineStep s
  | .value x => replyValue x s
  | .exhausted => replyExhausted s
  | .ack => replyAck s

/-- When a move still in the inbox is made (log entry 1): a reply waits while the engine runs, for the
event it answers; any other move is made at once. -/
def moveIsDue (s : State) (m : HostMove) : Bool :=
  match m with
  | .reset _ => true
  | .grow _ => true
  | .letStep => true
  | .value _ => decide (s.status ≠ .running)
  | .exhausted => decide (s.status ≠ .running)
  | .ack => decide (s.status ≠ .running)

/-- One transition of the engine and its host: the host's oldest move if it is due, else the engine's
step, which does nothing unless the engine is Running (a host that does not reply: spec/42_input_output.md
R170). -/
def turn (s : State) : Result :=
  match s.inbox with
  | [] => engineStep s
  | m :: rest => if moveIsDue s m then hostMove m { s with inbox := rest } else engineStep s

/-! ### What the host may look at -/

/-- The host may look at the engine before the run and after it ended (spec/20_memory.md R73). -/
def mayInspect (s : State) : Bool := beforeRun s || ended s

/-- The host reads one cell. -/
def inspectCell (a : Nat) (s : State) : Except Refusal Int :=
  if mayInspect s then (if a < s.len then .ok (s.mem.get a) else .error .noSuchCell)
  else .error .inspectDuringRun

/-- The host reads `len`, `pc` and `rb`. -/
def inspectRegisters (s : State) : Except Refusal (Nat × Nat × Int) :=
  if mayInspect s then .ok (s.len, s.pc, s.rb) else .error .inspectDuringRun

/-- The host reads the fault record: FCAUSE, FPC, FADDR (spec/10_state.md R29). -/
def faultRecord (s : State) : Except Refusal (Cause × Nat × Int) :=
  if s.status = .faulted then .ok (s.fcause, s.fpc, s.faddr) else .error .registerNotValid

/-- The model reads the latch IO_ADDR, in its window (spec/10_state.md R32). -/
def inputLatch (s : State) : Except Refusal Nat :=
  if s.status = .suspendedForInput then .ok s.ioAddr else .error .registerNotValid

/-- The model reads the latch IO_VAL, in its window (spec/10_state.md R32). -/
def outputLatch (s : State) : Except Refusal Int :=
  if s.status = .suspendedForOutput then .ok s.ioVal else .error .registerNotValid

end Sys2Proof.Machine
end

