-- ==== Sys2Proof/Machine/Placing.lean ====
section
/-! DEFINITION. Placing an instruction where the next step fetches it, for the host's check of the
opcode table (log entry 9). -/

namespace Sys2Proof.Machine

/-- The state in which the very next step fetches the word `w`, with literals 0 in the three cells after
it: the four cells at the cursor exist, the engine is Running with its run begun, and the moves of the
host that would come first are struck. -/
def placeWord (s : State) (w : Nat) : State :=
  { s with
    mem := (((s.mem.set s.pc (w : Int)).set (s.pc + 1) 0).set (s.pc + 2) 0).set (s.pc + 3) 0
    len := max s.len (s.pc + 4)
    status := .running
    started := true
    inbox := s.inbox.dropWhile (moveIsDue { s with status := .running }) }

end Sys2Proof.Machine
end

