-- ==== Sys2Proof/Machine/Step.lean ====
section
/-! DEFINITION. One step of the machine. -/

namespace Sys2Proof.Machine

/-- One transition: the engine's step (spec/40_decode_resolve_loop.md R122) or, at the points the spec
gives the host, the host's next move (spec/42_input_output.md R162). -/
def step (s : State) : Host.Outcome State Fault Refusal := turn s

/-- The state in which the next step fetches the instruction whose bits are `w` (log entry 9). -/
def State.withFetchWord (s : State) (_nbits w : Nat) : State := placeWord s w

end Sys2Proof.Machine
end

