-- ==== Sys2Proof/Machine/Adapters.lean ====
section
/-! DEFINITION. The host adapters layered over the suspension protocol (spec/42_input_output.md R163 to
R169; spec/60_exceptions.md R232, R233). They are host behaviour, not engine state (spec/10_state.md
R35): each keeps its own record beside the engines it drives. Every driver runs under fuel
(spec/40_decode_resolve_loop.md R124); one unit of fuel is one transition of one engine. -/

namespace Sys2Proof.Machine

/-- Go on from what a transition answers: a fault or a refusal stays what it is. -/
def carry {α β : Type} (o : Host.Outcome α Fault Refusal) (f : α → β) :
    Host.Outcome β Fault Refusal :=
  match o with
  | .next a => .next (f a)
  | .fault r => .fault r
  | .refused r => .refused r

/-- Repeat a transition `n` times, stopping at the first fault or refusal. -/
def repeatStep {α : Type} (g : α → Host.Outcome α Fault Refusal) :
    Nat → α → Host.Outcome α Fault Refusal
  | 0, a => .next a
  | n + 1, a =>
    match g a with
    | .next b => repeatStep g n b
    | .fault r => .fault r
    | .refused r => .refused r

/-- How a run ended, as its caller sees it (spec/42_input_output.md R163, R166; spec/46_halt.md R208): it
returned, which it does only once the machine is Halted, or it failed with the fault record; what the host
keeps of its own is there in both cases (R164). `unfinished` is the end of the fuel, not an end of the run. -/
inductive RunEnd (α : Type) where
  | returned (kept : α)
  | failed (cause : Cause) (fpc : Nat) (faddr : Int) (kept : α)
  | unfinished
  deriving DecidableEq, Repr

/-- The end the status tells (spec/40_decode_resolve_loop.md R126), with what the host keeps. -/
def runEnd {α : Type} (s : State) (kept : α) : RunEnd α :=
  match s.status with
  | .running => .unfinished
  | .suspendedForInput => .unfinished
  | .suspendedForOutput => .unfinished
  | .halted => .returned kept
  | .faulted => .failed s.fcause s.fpc s.faddr kept

/-! ### Scripted input, collected output (spec/42_input_output.md R163, R164) -/

/-- The engine with the host's queue `Q` of inputs still to give and list `O` of collected outputs. -/
structure Scripted where
  engine : State
  queue : List Int
  outputs : List Int
  deriving DecidableEq, Repr

/-- One turn of `run(inputs)`: a step while Running, else the reply the script gives. After the end of
the run nothing happens; inputs left over are not examined (R164). -/
def scriptedStep (r : Scripted) : Host.Outcome Scripted Fault Refusal :=
  match r.engine.status with
  | .running => carry (engineStep r.engine) (fun s => { r with engine := s })
  | .suspendedForInput =>
    match r.queue with
    | [] => carry (replyExhausted r.engine) (fun s => { r with engine := s })
    | x :: q => carry (replyValue x r.engine) (fun s => { r with engine := s, queue := q })
  | .suspendedForOutput =>
    carry (replyAck r.engine)
      (fun s => { r with engine := s, outputs := r.outputs ++ [r.engine.ioVal] })
  | .halted => .next r
  | .faulted => .next r

/-- `n` turns of the scripted convention. -/
def runScripted (n : Nat) (r : Scripted) : Host.Outcome Scripted Fault Refusal :=
  repeatStep scriptedStep n r

/-- The end of a scripted run: the outputs are returned once the machine halted, and those emitted before a
fault stay available (R164). -/
def scriptedEnd (r : Scripted) : RunEnd (List Int) := runEnd r.engine r.outputs

/-- `run(inputs)` (R163): the whole sequence of inputs to give, no output yet. -/
def scriptedCall (n : Nat) (inputs : List Int) (s : State) :
    Host.Outcome (RunEnd (List Int) × Scripted) Fault Refusal :=
  carry (runScripted n { engine := s, queue := inputs, outputs := [] }) (fun e => (scriptedEnd e, e))

/-! ### Callback-driven I/O (spec/42_input_output.md R166) -/

/-- The engine with the state the handler closes over. -/
structure Driven (σ : Type) where
  engine : State
  host : σ

/-- One turn of `run_with_handler(h)`: the handler is invoked once per event; what it returns for a Write
is ignored by the engine (R158). It has no way to say that input is exhausted (R155). -/
def handlerStep {σ : Type} (h : σ → Event → σ × Int) (d : Driven σ) :
    Host.Outcome (Driven σ) Fault Refusal :=
  match d.engine.status with
  | .running => carry (engineStep d.engine) (fun s => { d with engine := s })
  | .suspendedForInput =>
    carry (replyValue (h d.host .read).2 d.engine)
      (fun s => { engine := s, host := (h d.host .read).1 })
  | .suspendedForOutput =>
    carry (replyAck d.engine)
      (fun s => { engine := s, host := (h d.host (.write d.engine.ioVal)).1 })
  | .halted => .next d
  | .faulted => .next d

/-- `n` turns of the callback convention. -/
def runWithHandler {σ : Type} (h : σ → Event → σ × Int) (n : Nat) (d : Driven σ) :
    Host.Outcome (Driven σ) Fault Refusal :=
  repeatStep (handlerStep h) n d

/-- The end of a callback run (R166): it returns only once Halted, and fails with the fault record. -/
def handlerEnd {σ : Type} (d : Driven σ) : RunEnd σ := runEnd d.engine d.host

/-- `run_with_handler(h)` (R166). -/
def handlerCall {σ : Type} (h : σ → Event → σ × Int) (n : Nat) (d : Driven σ) :
    Host.Outcome (RunEnd σ × Driven σ) Fault Refusal :=
  carry (runWithHandler h n d) (fun e => (handlerEnd e, e))

/-- The handler of spec/42_input_output.md R169: it pops a queue on Read and appends on Write(v). What it
returns where the queue is empty, and for a Write, is 0, which R169 and R158 give no effect. -/
def queueHandler (q : List Int × List Int) (e : Event) : (List Int × List Int) × Int :=
  match e, q with
  | .read, (x :: rest, out) => ((rest, out), x)
  | .read, ([], out) => (([], out), 0)
  | .write v, (rest, out) => ((rest, out ++ [v]), 0)

/-! ### Stepping to the next output (spec/42_input_output.md R168) -/

/-- What `next_output` answers: `Some(v)`, `None` at Halted, a failure with the fault record at Faulted;
`unfinished` is the end of the fuel, which the spec does not have. -/
inductive NextOutput where
  | some (v : Int)
  | none
  | failed (cause : Cause) (fpc : Nat) (faddr : Int)
  | unfinished
  deriving DecidableEq, Repr

/-- An engine with the supply of inputs its host has for it. A supply is any state `σ` of the host with a
function `take` that gives the next value and what is left, or nothing where it is a finite queue that is
empty. -/
structure Supplied (σ : Type) where
  engine : State
  supply : σ
  deriving DecidableEq, Repr

/-- The next value of a finite queue. -/
def takeQueue : List Int → Option (Int × List Int)
  | [] => none
  | x :: rest => some (x, rest)

/-- One turn of the loop of `next_output`: a step while Running, at a Read the next value of the supply, or
`Exhausted`; at an output, at Halted and at Faulted the loop is over. -/
def awaitStep {σ : Type} (take : σ → Option (Int × σ)) (r : Supplied σ) :
    Host.Outcome (Supplied σ) Fault Refusal :=
  match r.engine.status with
  | .running => carry (engineStep r.engine) (fun s => { r with engine := s })
  | .suspendedForInput =>
    match take r.supply with
    | none => carry (replyExhausted r.engine) (fun s => { r with engine := s })
    | some (x, rest) => carry (replyValue x r.engine) (fun s => { engine := s, supply := rest })
  | .suspendedForOutput => .next r
  | .halted => .next r
  | .faulted => .next r

/-- What `next_output` answers with the engine in this state. -/
def nextAnswer (s : State) : NextOutput :=
  match s.status with
  | .running => .unfinished
  | .suspendedForInput => .unfinished
  | .suspendedForOutput => .some s.ioVal
  | .halted => .none
  | .faulted => .failed s.fcause s.fpc s.faddr

/-- An output left unacknowledged by the previous call is acknowledged. -/
def finishOutput (s : State) : State :=
  match s.status with
  | .suspendedForOutput => outputTaken s
  | _ => s

/-- `next_output(supply)`: it leaves the engine suspended at the output, and hands back what is left of the
supply, from which the next call goes on. -/
def nextOutput {σ : Type} (take : σ → Option (Int × σ)) (fuel : Nat) (r : Supplied σ) :
    Host.Outcome (NextOutput × Supplied σ) Fault Refusal :=
  carry (repeatStep (awaitStep take) fuel { r with engine := finishOutput r.engine })
    (fun e => (nextAnswer e.engine, e))

/-! ### Several engines (spec/60_exceptions.md R232, R233; spec/20_memory.md R74) -/

/-- One transition of engine `i` of a list of independent engines; the others are not touched. -/
def stepAt (i : Nat) (es : List State) : Host.Outcome (List State) Fault Refusal :=
  match es[i]? with
  | some s => carry (turn s) (fun t => es.set i t)
  | none => .next es

/-- An engine of the feedback ring, with its phase setting and whether it is still to be offered it. -/
structure Member where
  engine : State
  phase : Int
  first : Bool
  deriving DecidableEq, Repr

/-- The feedback ring (spec/60_exceptions.md R233): the engines, the latest signal, and whose turn it is. -/
structure Ring where
  members : List Member
  signal : Int
  next : Nat
  deriving DecidableEq, Repr

/-- The ring before its first pass: the initial signal, `first` true for every engine, `i` 0. -/
def startRing (engines : List (State × Int)) (signal : Int) : Ring :=
  { members := engines.map (fun e => { engine := e.1, phase := e.2, first := true })
    signal := signal
    next := 0 }

/-- What one pass of the ring's loop answers. -/
inductive RingPass where
  | goes (r : Ring)
  | result (signal : Int) (r : Ring)   -- `return signal`: an engine reported no further output
  | failed (r : Ring)                   -- an engine faulted
  | unfinished (r : Ring)               -- an engine's fuel ran out
  | empty                               -- there is no engine to step
  deriving DecidableEq, Repr

/-- The inputs an engine is offered in a pass: its phase setting first, once, then the signal (R233). -/
def ringSupply (m : Member) (signal : Int) : List Int :=
  if m.first then [m.phase, signal] else [signal]

/-- The ring once the engine whose turn it is has run: its state kept, its `first` cleared. -/
def Ring.keep (r : Ring) (m : Member) (engine : State) : Ring :=
  { r with members := r.members.set r.next { m with engine := engine, first := false } }

/-- How the pass goes on from what `next_output` answered. -/
def ringAnswer (kept : Ring) (o : NextOutput) : RingPass :=
  match o with
  | .none => .result kept.signal kept
  | .some v => .goes { kept with signal := v, next := (kept.next + 1) % kept.members.length }
  | .failed _ _ _ => .failed kept
  | .unfinished => .unfinished kept

/-- One pass of the loop of R233. -/
def ringPass (fuel : Nat) (r : Ring) : Host.Outcome RingPass Fault Refusal :=
  match r.members[r.next]? with
  | none => .next .empty
  | some m =>
    carry (nextOutput takeQueue fuel { engine := m.engine, supply := ringSupply m r.signal })
      (fun e => ringAnswer (r.keep m e.2.engine) e.1)

/-- `n` passes of the ring, ending where the loop returns or fails. -/
def runRing (fuel : Nat) : Nat → Ring → Host.Outcome RingPass Fault Refusal
  | 0, r => .next (.goes r)
  | n + 1, r =>
    match ringPass fuel r with
    | .next (.goes r') => runRing fuel n r'
    | o => o

/-- The feedback ring from its start (R233). -/
def ringCall (fuel passes : Nat) (engines : List (State × Int)) (signal : Int) :
    Host.Outcome RingPass Fault Refusal :=
  runRing fuel passes (startRing engines signal)

end Sys2Proof.Machine
end

