-- ==== Sys2Proof/Safety.lean ====
section
/-! DEFINITION. The terms claims are stated in: the states a run can reach, when an operand can be
resolved and what it then is, the order of an instruction's checks, and the legal transitions of
`status`. None of these is used by the machine: they are written from the spec's tables and prose, so
that a claim compares two readings of it. -/

namespace Sys2Proof.Machine

/-! ### The invariant -/

/-- What every state of a run meets. -/
structure State.Inv (s : State) : Prop where
  /-- The parameters meet their constraints (spec/00_scope.md R6, R7). -/
  params : paramsOk s.params = true
  /-- Memory is in canonical form (log entry 4). -/
  canonical : s.mem.wf = true
  /-- Every listed cell exists and holds a cell value (spec/20_memory.md R50). -/
  cells : s.mem.fits s.params.width s.len = true
  /-- `0 <= len <= MEM_MAX` (spec/10_state.md R31). -/
  length : s.len ≤ s.params.memMax
  /-- `0 <= pc <= INT_MAX` (spec/10_state.md R21). -/
  cursor : (s.pc : Int) ≤ intMax s.params.width
  /-- `INT_MIN <= rb <= INT_MAX` (spec/10_state.md R24). -/
  base : inRange s.params.width s.rb = true
  /-- The latch of a suspended IN is a valid index, and the instruction's literal cell exists
  (spec/10_state.md R32; spec/42_input_output.md R152). -/
  input : s.status = .suspendedForInput → s.ioAddr < s.len ∧ s.pc + 1 < s.len
  /-- The latch of a suspended OUT is a cell value (spec/42_input_output.md R150, R156). -/
  output : s.status = .suspendedForOutput → inRange s.params.width s.ioVal = true ∧ s.pc + 1 < s.len
  /-- A Faulted engine's FPC is its cursor (spec/60_exceptions.md R211, R219). -/
  record : s.status = .faulted → s.fpc = s.pc
  /-- Before the run the cursor and the base are as reset left them, and the engine is Running, or was
  Faulted by a rejected growth request (spec/20_memory.md R60, R62, R63). -/
  unstarted : s.started = false → s.pc = 0 ∧ s.rb = 0 ∧ (s.status = .running ∨ s.status = .faulted)

/-! ### Operands -/

/-- The literal of slot `k` (spec/00_scope.md R14). -/
def literal (s : State) (k : Nat) : Int := s.mem.get (s.pc + k)

/-- The address that slot `k` names in a mode that names one (spec/30_encoding.md R85). -/
def slotAddress (s : State) (m : Mode) (k : Nat) : Option Int :=
  match m with
  | .position => some (literal s k)
  | .immediate => none
  | .relative => some (s.rb + literal s k)

/-- An index of a cell that exists (spec/20_memory.md R52). -/
def valid (s : State) (a : Int) : Bool := decide (0 ≤ a ∧ a < s.len)

/-- A source operand can be resolved (spec/20_memory.md R53). -/
def readable (s : State) (m : Mode) (k : Nat) : Bool :=
  valid s (s.pc + k) && (match slotAddress s m k with
    | some a => valid s a
    | none => true)

/-- The value of a source operand that can be resolved (spec/30_encoding.md R85). -/
def operand (s : State) (m : Mode) (k : Nat) : Int :=
  match slotAddress s m k with
  | some a => s.mem.get a.toNat
  | none => literal s k

/-- A destination operand can be resolved (spec/30_encoding.md R85, R87). -/
def writable (s : State) (m : Mode) (k : Nat) : Bool :=
  valid s (s.pc + k) && (match slotAddress s m k with
    | some a => valid s a
    | none => false)

/-- The address a destination operand names (spec/30_encoding.md R85). -/
def target (s : State) (m : Mode) (k : Nat) : Nat :=
  match slotAddress s m k with
  | some a => a.toNat
  | none => 0

/-! ### The order of checks (spec/60_exceptions.md R217) -/

/-- One check: it fails when its condition holds, and then raises its cause with its info. -/
abbrev Check := Bool × Cause × Int

/-- What the first failing check raises. -/
def firstFailure : List Check → Option Raise
  | [] => none
  | (bad, c, info) :: rest => if bad then some ⟨c, info⟩ else firstFailure rest

/-- The literal cell of slot `k` exists. -/
def literalCheck (s : State) (k : Nat) : Check := (!valid s (s.pc + k), .outOfBounds, s.pc + k)

/-- The checks of a source slot: the literal cell, then the indirect read. -/
def sourceChecks (s : State) (m : Mode) (k : Nat) : List Check :=
  literalCheck s k :: (match slotAddress s m k with
    | some a => [(!valid s a, .outOfBounds, a)]
    | none => [])

/-- The checks of a destination slot: the literal cell, then the Immediate mode, then the range. -/
def destinationChecks (s : State) (m : Mode) (k : Nat) : List Check :=
  literalCheck s k :: (match slotAddress s m k with
    | some a => [(!valid s a, .outOfBounds, a)]
    | none => [(true, .illegalMode, s.mem.get s.pc)])

/-- The range check of a result. -/
def overflowCheck (s : State) (v : Int) : Check :=
  (decide (v < intMin s.params.width ∨ intMax s.params.width < v), .overflow, v)

/-- `n(op)`, the number of operands of an operation code of the fixed set
(spec/40_decode_resolve_loop.md R111); `none` outside the set. -/
def operandCount (op : Nat) : Option Nat :=
  if op = 1 ∨ op = 2 ∨ op = 7 ∨ op = 8 then some 3
  else if op = 5 ∨ op = 6 then some 2
  else if op = 3 ∨ op = 4 ∨ op = 9 then some 1
  else if op = 99 then some 0
  else none

/-- The checks of decode, in order (spec/60_exceptions.md R217, item 2): a negative word, the operation
code, the used mode digits from slot 1, then, under `fault`, the digits above them. -/
def decodeChecks (s : State) : List Check :=
  let w := s.mem.get s.pc
  (decide (w < 0), .malformedOpcode, w) ::
  match operandCount (w.toNat % 100) with
  | none => [(true, .malformedOpcode, w)]
  | some n =>
    (List.range n).map (fun k => (decide (2 < digit w.toNat (k + 2)), .illegalMode, w)) ++
    [(decide (s.params.reserved = .fault) && decide (w.toNat / 10 ^ (n + 2) ≠ 0), .illegalMode, w)]

/-- The checks an instruction makes after decode, in order (spec/60_exceptions.md R217, items 3 and 4). -/
def checksOf (i : Instr) (s : State) : List Check :=
  match i with
  | .add m1 m2 m3 => sourceChecks s m1 1 ++ sourceChecks s m2 2 ++ destinationChecks s m3 3 ++
      [overflowCheck s (operand s m1 1 + operand s m2 2)]
  | .mul m1 m2 m3 => sourceChecks s m1 1 ++ sourceChecks s m2 2 ++ destinationChecks s m3 3 ++
      [overflowCheck s (operand s m1 1 * operand s m2 2)]
  | .inp m1 => destinationChecks s m1 1
  | .out m1 => sourceChecks s m1 1
  | .jt m1 m2 => sourceChecks s m1 1 ++ sourceChecks s m2 2 ++
      [(decide (operand s m1 1 ≠ 0 ∧ operand s m2 2 < 0), .outOfBounds, operand s m2 2)]
  | .jf m1 m2 => sourceChecks s m1 1 ++ sourceChecks s m2 2 ++
      [(decide (operand s m1 1 = 0 ∧ operand s m2 2 < 0), .outOfBounds, operand s m2 2)]
  | .lt m1 m2 m3 => sourceChecks s m1 1 ++ sourceChecks s m2 2 ++ destinationChecks s m3 3
  | .eq m1 m2 m3 => sourceChecks s m1 1 ++ sourceChecks s m2 2 ++ destinationChecks s m3 3
  | .arb m1 => sourceChecks s m1 1 ++ [overflowCheck s (s.rb + operand s m1 1)]
  | .halt => []

/-- The state fault entry leaves: the record and the status, and nothing else
(spec/60_exceptions.md R219). -/
def faultedAt (s : State) (r : Raise) : State :=
  { s with fcause := r.cause, fpc := s.pc, faddr := r.info, status := .faulted }

/-- The instructions whose step may write a cell (spec/20_memory.md R54). -/
def storesMemory : Instr → Bool
  | .add _ _ _ => true
  | .mul _ _ _ => true
  | .inp _ => false
  | .out _ => false
  | .jt _ _ => false
  | .jf _ _ => false
  | .lt _ _ _ => true
  | .eq _ _ _ => true
  | .arb _ => false
  | .halt => false

/-- What an instruction leaves when none of its checks fails (the instruction rules of spec/41_add_mul.md
to spec/46_halt.md): every other field is as it was. -/
def effectOf (i : Instr) (s : State) : State :=
  match i with
  | .add m1 m2 m3 =>
    { s with mem := s.mem.set (target s m3 3) (operand s m1 1 + operand s m2 2), pc := s.pc + 4 }
  | .mul m1 m2 m3 =>
    { s with mem := s.mem.set (target s m3 3) (operand s m1 1 * operand s m2 2), pc := s.pc + 4 }
  | .inp m1 => { s with ioAddr := target s m1 1, status := .suspendedForInput }
  | .out m1 => { s with ioVal := operand s m1 1, status := .suspendedForOutput }
  | .jt m1 m2 =>
    { s with pc := if operand s m1 1 ≠ 0 then (operand s m2 2).toNat else s.pc + 3 }
  | .jf m1 m2 =>
    { s with pc := if operand s m1 1 = 0 then (operand s m2 2).toNat else s.pc + 3 }
  | .lt m1 m2 m3 =>
    { s with mem := s.mem.set (target s m3 3) (if operand s m1 1 < operand s m2 2 then 1 else 0),
             pc := s.pc + 4 }
  | .eq m1 m2 m3 =>
    { s with mem := s.mem.set (target s m3 3) (if operand s m1 1 = operand s m2 2 then 1 else 0),
             pc := s.pc + 4 }
  | .arb m1 => { s with rb := s.rb + operand s m1 1, pc := s.pc + 2 }
  | .halt => { s with status := .halted }

/-- The cell an instruction's own step stores to and the value it stores (spec/20_memory.md R54); IN stores at
its completion, not by this step. -/
def storedBy (i : Instr) (s : State) : Option (Nat × Int) :=
  match i with
  | .add m1 m2 m3 => some (target s m3 3, operand s m1 1 + operand s m2 2)
  | .mul m1 m2 m3 => some (target s m3 3, operand s m1 1 * operand s m2 2)
  | .inp _ => none
  | .out _ => none
  | .jt _ _ => none
  | .jf _ _ => none
  | .lt m1 m2 m3 => some (target s m3 3, if operand s m1 1 < operand s m2 2 then 1 else 0)
  | .eq m1 m2 m3 => some (target s m3 3, if operand s m1 1 = operand s m2 2 then 1 else 0)
  | .arb _ => none
  | .halt => none

/-- Whether a jump is taken (spec/43_jumps.md R180, R181); no other instruction is one. -/
def takesJump (i : Instr) (s : State) : Bool :=
  match i with
  | .add _ _ _ => false
  | .mul _ _ _ => false
  | .inp _ => false
  | .out _ => false
  | .jt m1 _ => decide (operand s m1 1 ≠ 0)
  | .jf m1 _ => decide (operand s m1 1 = 0)
  | .lt _ _ _ => false
  | .eq _ _ _ => false
  | .arb _ => false
  | .halt => false

/-- The next step of the engine uses the value `v` stored at `d`, as its word or as a literal of its word
(spec/20_memory.md R71). -/
def nextStepUses (t : State) (d : Nat) (v : Int) : Prop :=
  (d = t.pc →
    (∀ j, decode t.params.reserved v = .ok j → step t = exec j { t with started := true }) ∧
    (∀ r, decode t.params.reserved v = .error r →
      step t = .next (faultedAt { t with started := true } ⟨causeOf r, v⟩))) ∧
  (∀ k, d = t.pc + k → lit t k = .ok v)

/-- Which cause the instruction's own step can raise (spec/60_exceptions.md R213, the rows below "fetch and
decode"; IN's InputExhausted is raised at its completion, not by this step). -/
def mayRaise (i : Instr) (c : Cause) : Bool :=
  match c with
  | .malformedOpcode => false
  | .outOfBounds => decide (i ≠ .halt)
  | .inputExhausted => false
  | .growthBelowSize => false
  | .illegalMode => !i.wf
  | .overflow => match i with
    | .add _ _ _ => true
    | .mul _ _ _ => true
    | .inp _ => false
    | .out _ => false
    | .jt _ _ => false
    | .jf _ _ => false
    | .lt _ _ _ => false
    | .eq _ _ _ => false
    | .arb _ => true
    | .halt => false

/-! ### The life of a run -/

/-- The legal transitions of `status` (spec/10_state.md R28), reset aside. -/
def legalTransition : Status → Status → Bool
  | .running, _ => true
  | .suspendedForInput, .running => true
  | .suspendedForInput, .faulted => true
  | .suspendedForOutput, .running => true
  | _, _ => false

/-- The oldest pending move of the host is a reset. -/
def resetPending (s : State) : Bool :=
  match s.inbox with
  | .reset _ :: _ => true
  | _ => false

/-- The oldest pending move of the host is a reply that the status waits for (spec/42_input_output.md R162). -/
def replyAwaited (s : State) : Bool :=
  match s.status, s.inbox with
  | .suspendedForInput, .value _ :: _ => true
  | .suspendedForInput, .exhausted :: _ => true
  | .suspendedForOutput, .ack :: _ => true
  | _, _ => false

/-- The engine itself makes the next transition: no move of the host is due. -/
def hostIdle (s : State) : Bool :=
  match s.inbox with
  | [] => true
  | m :: _ => !moveIsDue s m

end Sys2Proof.Machine
end

