-- ==== Sys2Proof/Certificates/Slice0/Obligations.lean ====
section
/-! DEFINITION. The statements for the provers. Each docstring names the rule of spec/ it comes from; one
that rests on a choice of the model says so and names the log entry. -/

open Sys2Proof Sys2Proof.Machine

/-! ### Encoding -/

/-- spec/30_encoding.md R83, R88: decoding an instruction's word gives the instruction back, with every
mode in every slot and under both settings of `RESERVED_DIGITS`. -/
def Obligations.DecodeEncodeRoundTrip : Prop :=
  ∀ (rd : ReservedDigits) (i : Instr), decode rd (encode i) = .ok i

/-- spec/30_encoding.md R83, R88, R92: under `fault` an instruction has exactly one word. -/
def Obligations.OnlyTheEncodingDecodes : Prop :=
  ∀ (w : Int) (i : Instr), decode .fault w = .ok i ↔ w = encode i

/-- spec/30_encoding.md R88: under `fault` exactly 136 words are accepted, and 99 of them can execute
(no Immediate destination). -/
def Obligations.AcceptedWordsCounted : Prop :=
  ∃ ws : List Nat, ws.Nodup ∧ ws.length = 136 ∧
    (∀ w : Int, (∃ i, decode .fault w = .ok i) ↔ ∃ n ∈ ws, w = (n : Int)) ∧
    (ws.filter (fun n => match decode .fault (n : Int) with
      | .ok i => i.wf
      | .error _ => false)).length = 99

/-- spec/30_encoding.md R92: under `ignore` a word decodes to an instruction exactly when its operation
code and used mode digits are the instruction's; the digits above are free. -/
def Obligations.IgnoredDigitsAreFree : Prop :=
  ∀ (w : Nat) (i : Instr),
    decode .ignore (w : Int) = .ok i ↔ w % 10 ^ (i.modes.length + 2) = encodeNat i

/-- spec/30_encoding.md R92: a word with a non-zero digit in an absent slot or above the ten-thousands
place raises IllegalMode with the word at decode under `fault`, and decodes as if those digits were 0 under
`ignore`. -/
def Obligations.ReservedDigitRule : Prop :=
  ∀ (w n : Nat), operandCount (w % 100) = some n →
    (w / 10 ^ (n + 2) ≠ 0 → decode .fault (w : Int) = .error .illegalMode ∧
      ∀ s : State, s.status = .running → hostIdle s = true → s.params.reserved = .fault → s.pc < s.len →
        s.mem.get s.pc = (w : Int) →
        step s = .next (faultedAt { s with started := true } ⟨.illegalMode, w⟩)) ∧
    decode .ignore (w : Int) = decode .ignore ((w % 10 ^ (n + 2) : Nat) : Int) ∧
    decode .ignore ((w % 10 ^ (n + 2) : Nat) : Int) = decode .fault ((w % 10 ^ (n + 2) : Nat) : Int)

/-- spec/30_encoding.md R90, R93; spec/40_decode_resolve_loop.md R112: a step that fetches a negative
word, or one whose value mod 100 is outside the fixed set, raises MalformedOpcode with the word. -/
def Obligations.UnrecognisedWordFaults : Prop :=
  ∀ s : State, s.status = .running → hostIdle s = true → s.pc < s.len →
    (s.mem.get s.pc < 0 ∨ s.mem.get s.pc % 100 ∉ ([1, 2, 3, 4, 5, 6, 7, 8, 9, 99] : List Int)) →
    step s = .next (faultedAt { s with started := true } ⟨.malformedOpcode, s.mem.get s.pc⟩)

/-- spec/30_encoding.md R91: a mode digit of 3 to 9 in a used slot raises IllegalMode with the word, under
both settings of `RESERVED_DIGITS`. -/
def Obligations.UsedModeDigitAboveTwoFaults : Prop :=
  ∀ (s : State) (n k : Nat), s.status = .running → hostIdle s = true → s.pc < s.len →
    0 ≤ s.mem.get s.pc → operandCount ((s.mem.get s.pc).toNat % 100) = some n →
    1 ≤ k → k ≤ n → 3 ≤ digit (s.mem.get s.pc).toNat (k + 1) →
    step s = .next (faultedAt { s with started := true } ⟨.illegalMode, s.mem.get s.pc⟩)

/-- spec/30_encoding.md R83, R94; spec/95_test_vectors.md sections 2.1 and 2.2: twelve words written out from
the decimal patterns: ten that decode, an Immediate destination among them, and two that are rejected, one of
which decodes under `ignore`. -/
def Obligations.SpecWordsDecode : Prop :=
  decode .fault 1002 = .ok (.mul .position .immediate .position) ∧
  decode .fault 22201 = .ok (.add .relative .relative .relative) ∧
  decode .fault 21107 = .ok (.lt .immediate .immediate .relative) ∧
  decode .fault 1008 = .ok (.eq .position .immediate .position) ∧
  decode .fault 103 = .ok (.inp .immediate) ∧
  decode .fault 204 = .ok (.out .relative) ∧
  decode .fault 1206 = .ok (.jf .relative .immediate) ∧
  decode .fault 105 = .ok (.jt .immediate .position) ∧
  decode .fault 209 = .ok (.arb .relative) ∧
  decode .fault 99 = .ok .halt ∧
  decode .fault 398 = .error .malformedOpcode ∧
  decode .fault 1099 = .error .illegalMode ∧
  decode .ignore 1099 = .ok .halt

/-! ### The operand resolver -/

/-- spec/40_decode_resolve_loop.md R121: the worked resolutions, in every state with the given cells. -/
def Obligations.WorkedResolutions : Prop :=
  ∀ s : State, s.pc = 10 → s.rb = 50 → s.len = 100 → s.mem.get 11 = 7 → s.mem.get 12 = -3 →
    s.mem.get 13 = 60 → s.mem.get 7 = 70 → s.mem.get 47 = 80 →
    readValue s .position 1 = .ok 70 ∧
    readValue s .immediate 1 = .ok 7 ∧
    readValue s .relative 1 = .ok (s.mem.get 57) ∧
    readValue s .immediate 2 = .ok (-3) ∧
    readValue s .position 2 = .error ⟨.outOfBounds, -3⟩ ∧
    readValue s .relative 2 = .ok 80 ∧
    readAddress s .position 3 = .ok 60 ∧
    readAddress s .relative 3 = .error ⟨.outOfBounds, 110⟩ ∧
    readAddress s .immediate 3 = .error ⟨.illegalMode, s.mem.get 10⟩

/-- spec/40_decode_resolve_loop.md R117: a Relative address is the exact sum; one outside the cell range is
always out of bounds, with the exact sum as `info`, and is never wrapped into range. -/
def Obligations.RelativeSumNeverWraps : Prop :=
  ∀ (s : State) (k : Nat), s.Inv → s.pc + k < s.len →
    inRange s.params.width (s.rb + literal s k) = false →
    readValue s .relative k = .error ⟨.outOfBounds, s.rb + literal s k⟩ ∧
    readAddress s .relative k = .error ⟨.outOfBounds, s.rb + literal s k⟩

/-! ### The instructions: word and length, result, faults in order -/

/-- spec/41_add_mul.md R140, R142: ADD. -/
def Obligations.AddRule : Prop :=
  ∀ (s : State) (m1 m2 m3 : Mode),
    (∀ rd, decode rd ((1 + 100 * modeDigit m1 + 1000 * modeDigit m2 + 10000 * modeDigit m3 : Nat) : Int)
        = .ok (.add m1 m2 m3)) ∧
    (Instr.add m1 m2 m3).cells = 4 ∧
    (readable s m1 1 = true → readable s m2 2 = true → writable s m3 3 = true →
      inRange s.params.width (operand s m1 1 + operand s m2 2) = true →
      exec (.add m1 m2 m3) s = .next { s with
        mem := s.mem.set (target s m3 3) (operand s m1 1 + operand s m2 2), pc := s.pc + 4 }) ∧
    (∀ r, firstFailure (checksOf (.add m1 m2 m3) s) = some r →
      exec (.add m1 m2 m3) s = .next (faultedAt s r))

/-- spec/41_add_mul.md R141, R142: MUL. -/
def Obligations.MulRule : Prop :=
  ∀ (s : State) (m1 m2 m3 : Mode),
    (∀ rd, decode rd ((2 + 100 * modeDigit m1 + 1000 * modeDigit m2 + 10000 * modeDigit m3 : Nat) : Int)
        = .ok (.mul m1 m2 m3)) ∧
    (Instr.mul m1 m2 m3).cells = 4 ∧
    (readable s m1 1 = true → readable s m2 2 = true → writable s m3 3 = true →
      inRange s.params.width (operand s m1 1 * operand s m2 2) = true →
      exec (.mul m1 m2 m3) s = .next { s with
        mem := s.mem.set (target s m3 3) (operand s m1 1 * operand s m2 2), pc := s.pc + 4 }) ∧
    (∀ r, firstFailure (checksOf (.mul m1 m2 m3) s) = some r →
      exec (.mul m1 m2 m3) s = .next (faultedAt s r))

/-- spec/44_compare.md R190: LT. -/
def Obligations.LessThanRule : Prop :=
  ∀ (s : State) (m1 m2 m3 : Mode),
    (∀ rd, decode rd ((7 + 100 * modeDigit m1 + 1000 * modeDigit m2 + 10000 * modeDigit m3 : Nat) : Int)
        = .ok (.lt m1 m2 m3)) ∧
    (Instr.lt m1 m2 m3).cells = 4 ∧
    (readable s m1 1 = true → readable s m2 2 = true → writable s m3 3 = true →
      exec (.lt m1 m2 m3) s = .next { s with
        mem := s.mem.set (target s m3 3) (if operand s m1 1 < operand s m2 2 then 1 else 0),
        pc := s.pc + 4 }) ∧
    (∀ r, firstFailure (checksOf (.lt m1 m2 m3) s) = some r →
      exec (.lt m1 m2 m3) s = .next (faultedAt s r))

/-- spec/44_compare.md R191: EQ. -/
def Obligations.EqualsRule : Prop :=
  ∀ (s : State) (m1 m2 m3 : Mode),
    (∀ rd, decode rd ((8 + 100 * modeDigit m1 + 1000 * modeDigit m2 + 10000 * modeDigit m3 : Nat) : Int)
        = .ok (.eq m1 m2 m3)) ∧
    (Instr.eq m1 m2 m3).cells = 4 ∧
    (readable s m1 1 = true → readable s m2 2 = true → writable s m3 3 = true →
      exec (.eq m1 m2 m3) s = .next { s with
        mem := s.mem.set (target s m3 3) (if operand s m1 1 = operand s m2 2 then 1 else 0),
        pc := s.pc + 4 }) ∧
    (∀ r, firstFailure (checksOf (.eq m1 m2 m3) s) = some r →
      exec (.eq m1 m2 m3) s = .next (faultedAt s r))

/-- spec/42_input_output.md R152: IN, the engine's half: the destination is latched, the engine suspends,
`Read` is visible, and the cursor and memory stay; a failing check is raised before that, with no event. -/
def Obligations.InputRule : Prop :=
  ∀ (s : State) (m1 : Mode),
    (∀ rd, decode rd ((3 + 100 * modeDigit m1 : Nat) : Int) = .ok (.inp m1)) ∧
    (Instr.inp m1).cells = 2 ∧
    (writable s m1 1 = true → ∃ t, exec (.inp m1) s = .next t ∧
      t = { s with ioAddr := target s m1 1, status := .suspendedForInput } ∧ t.event = some .read) ∧
    (∀ r, firstFailure (checksOf (.inp m1) s) = some r →
      exec (.inp m1) s = .next (faultedAt s r) ∧ (faultedAt s r).event = none)

/-- spec/42_input_output.md R156: OUT, the engine's half: the value is latched, the engine suspends,
`Write(v)` is visible with the value whole, and the cursor and memory stay. -/
def Obligations.OutputRule : Prop :=
  ∀ (s : State) (m1 : Mode),
    (∀ rd, decode rd ((4 + 100 * modeDigit m1 : Nat) : Int) = .ok (.out m1)) ∧
    (Instr.out m1).cells = 2 ∧
    (readable s m1 1 = true → ∃ t, exec (.out m1) s = .next t ∧
      t = { s with ioVal := operand s m1 1, status := .suspendedForOutput } ∧
      t.event = some (.write (operand s m1 1))) ∧
    (∀ r, firstFailure (checksOf (.out m1) s) = some r →
      exec (.out m1) s = .next (faultedAt s r) ∧ (faultedAt s r).event = none)

/-- spec/43_jumps.md R180: JT. -/
def Obligations.JumpIfTrueRule : Prop :=
  ∀ (s : State) (m1 m2 : Mode),
    (∀ rd, decode rd ((5 + 100 * modeDigit m1 + 1000 * modeDigit m2 : Nat) : Int) = .ok (.jt m1 m2)) ∧
    (Instr.jt m1 m2).cells = 3 ∧
    (readable s m1 1 = true → readable s m2 2 = true → operand s m1 1 ≠ 0 → 0 ≤ operand s m2 2 →
      exec (.jt m1 m2) s = .next { s with pc := (operand s m2 2).toNat }) ∧
    (readable s m1 1 = true → readable s m2 2 = true → operand s m1 1 = 0 →
      exec (.jt m1 m2) s = .next { s with pc := s.pc + 3 }) ∧
    (∀ r, firstFailure (checksOf (.jt m1 m2) s) = some r →
      exec (.jt m1 m2) s = .next (faultedAt s r))

/-- spec/43_jumps.md R181: JF. -/
def Obligations.JumpIfFalseRule : Prop :=
  ∀ (s : State) (m1 m2 : Mode),
    (∀ rd, decode rd ((6 + 100 * modeDigit m1 + 1000 * modeDigit m2 : Nat) : Int) = .ok (.jf m1 m2)) ∧
    (Instr.jf m1 m2).cells = 3 ∧
    (readable s m1 1 = true → readable s m2 2 = true → operand s m1 1 = 0 → 0 ≤ operand s m2 2 →
      exec (.jf m1 m2) s = .next { s with pc := (operand s m2 2).toNat }) ∧
    (readable s m1 1 = true → readable s m2 2 = true → operand s m1 1 ≠ 0 →
      exec (.jf m1 m2) s = .next { s with pc := s.pc + 3 }) ∧
    (∀ r, firstFailure (checksOf (.jf m1 m2) s) = some r →
      exec (.jf m1 m2) s = .next (faultedAt s r))

/-- spec/45_adjust_relative_base.md R200, R201: ARB; the operand is read with the old base. -/
def Obligations.AdjustBaseRule : Prop :=
  ∀ (s : State) (m1 : Mode),
    (∀ rd, decode rd ((9 + 100 * modeDigit m1 : Nat) : Int) = .ok (.arb m1)) ∧
    (Instr.arb m1).cells = 2 ∧
    (readable s m1 1 = true → inRange s.params.width (s.rb + operand s m1 1) = true →
      exec (.arb m1) s = .next { s with rb := s.rb + operand s m1 1, pc := s.pc + 2 }) ∧
    (∀ r, firstFailure (checksOf (.arb m1) s) = some r →
      exec (.arb m1) s = .next (faultedAt s r))

/-- spec/46_halt.md R205: HALT: the status and nothing else; it raises nothing, in the last cell too. -/
def Obligations.HaltRule : Prop :=
  ∀ s : State,
    (∀ rd, decode rd 99 = .ok .halt) ∧ Instr.halt.cells = 1 ∧
    exec .halt s = .next { s with status := .halted } ∧
    (s.status = .running → hostIdle s = true → s.pc < s.len → s.mem.get s.pc = 99 →
      step s = .next { s with status := .halted, started := true })

/-! ### Frames -/

/-- spec/20_memory.md R66, clause (c): a read gives the latest write to that index, and any other cell is as
it was. This is what the `mem.set` of the rules above means to a reader of cells. -/
def Obligations.ReadsGiveLatestWrite : Prop :=
  ∀ (m : Memory) (a b : Nat) (v : Int), (m.set a v).get b = if b = a then v else m.get b

/-- spec/20_memory.md R54, spec/60_exceptions.md R219: ADD, MUL, LT and EQ change one cell, the one
`readAddress` resolves for slot 3, and the cursor; or they fault and change the fault record and the
status. -/
def Obligations.StoringFrame : Prop :=
  ∀ (i : Instr) (m1 m2 m3 : Mode) (s t : State),
    (i = .add m1 m2 m3 ∨ i = .mul m1 m2 m3 ∨ i = .lt m1 m2 m3 ∨ i = .eq m1 m2 m3) →
    exec i s = .next t →
    t.params = s.params ∧ t.len = s.len ∧ t.rb = s.rb ∧ t.ioAddr = s.ioAddr ∧ t.ioVal = s.ioVal ∧
    t.started = s.started ∧ t.inbox = s.inbox ∧
    ((t.status = s.status ∧ t.fcause = s.fcause ∧ t.fpc = s.fpc ∧ t.faddr = s.faddr) ∨
      (t.status = .faulted ∧ t.mem = s.mem ∧ t.pc = s.pc)) ∧
    (∀ d, readAddress s m3 3 = .ok d → ∀ a, a ≠ d → t.mem.get a = s.mem.get a) ∧
    ((∀ d, readAddress s m3 3 ≠ .ok d) → t.mem = s.mem)

/-- spec/20_memory.md R54, spec/10_state.md R22, spec/45_adjust_relative_base.md R202: IN (the engine's
half), OUT, JT, JF, ARB and HALT store nothing; each changes only the registers its rule names. -/
def Obligations.NonStoringFrame : Prop :=
  ∀ (i : Instr) (s t : State), storesMemory i = false → exec i s = .next t →
    (∀ a, t.mem.get a = s.mem.get a) ∧ t.params = s.params ∧ t.len = s.len ∧
    t.started = s.started ∧ t.inbox = s.inbox ∧
    ((∀ m, i ≠ .arb m) → t.rb = s.rb) ∧
    ((∀ m, i ≠ .inp m) → t.ioAddr = s.ioAddr) ∧
    ((∀ m, i ≠ .out m) → t.ioVal = s.ioVal) ∧
    ((∀ m1 m2, i ≠ .jt m1 m2) → (∀ m1 m2, i ≠ .jf m1 m2) → (∀ m, i ≠ .arb m) → t.pc = s.pc) ∧
    ((t.fcause = s.fcause ∧ t.fpc = s.fpc ∧ t.faddr = s.faddr) ∨
      (t.status = .faulted ∧ t.mem = s.mem ∧ t.pc = s.pc ∧ t.rb = s.rb ∧ t.ioAddr = s.ioAddr ∧
        t.ioVal = s.ioVal)) ∧
    (t.status = s.status ∨ t.status = .faulted ∨
      (∃ m, i = .inp m ∧ t.status = .suspendedForInput) ∨
      (∃ m, i = .out m ∧ t.status = .suspendedForOutput) ∨ (i = .halt ∧ t.status = .halted))

/-! ### The loop -/

/-- spec/40_decode_resolve_loop.md R122: a step whose cell at the cursor decodes to an instruction is that
instruction's meaning, in a run that has now begun. The engine makes the step when no move of the host is
due (the model's log entry 1). -/
def Obligations.StepRunsDecodedInstruction : Prop :=
  ∀ (s : State) (i : Instr), s.status = .running → hostIdle s = true → s.pc < s.len →
    decode s.params.reserved (s.mem.get s.pc) = .ok i →
    step s = exec i { s with started := true }

/-- spec/46_halt.md R207: past the end of memory a step halts: no fetch, no fault, nothing recorded. -/
def Obligations.ImplicitHalt : Prop :=
  ∀ s : State, s.status = .running → hostIdle s = true → s.len ≤ s.pc →
    step s = .next { s with status := .halted, started := true }

/-- spec/60_exceptions.md R217: one step reports the first failing check in the fixed order: the implicit
halt before all; decode; operands and operation; and for IN, later, the exhausted input. When no check
fails the step completes without a fault. That no move of the host is due, and that the host's reply
Exhausted stands in the inbox, are the model's log entry 1. -/
def Obligations.FirstFailureIsReported : Prop :=
  ∀ s : State,
    (s.status = .running → hostIdle s = true →
      (s.len ≤ s.pc → ∃ t, step s = .next t ∧ t.status = .halted) ∧
      (s.pc < s.len →
        (∀ r, firstFailure (decodeChecks s) = some r →
          step s = .next (faultedAt { s with started := true } r)) ∧
        (firstFailure (decodeChecks s) = none →
          ∃ i, decode s.params.reserved (s.mem.get s.pc) = .ok i ∧
            (∀ r, firstFailure (checksOf i s) = some r →
              step s = .next (faultedAt { s with started := true } r)) ∧
            (firstFailure (checksOf i s) = none →
              ∃ t, step s = .next t ∧ t.status ≠ .faulted)))) ∧
    (∀ rest, s.status = .suspendedForInput → s.inbox = .exhausted :: rest →
      step s = .next (faultedAt { s with inbox := rest } ⟨.inputExhausted, s.ioAddr⟩))

/-- spec/60_exceptions.md R219, R211: fault entry. A transition into Faulted writes the fault record (the
cause, the cursor, the info) and the status, and nothing else of the engine. `started` and `inbox` are the
model's bookkeeping of the run and of the host (log entries 1 and 11). -/
def Obligations.FaultsArePrecise : Prop :=
  ∀ s t : State, s.status ≠ .faulted → step s = .next t → t.status = .faulted →
    ∃ (r : Raise) (b : Bool) (moves : List HostMove),
      t = { s with fcause := r.cause, fpc := s.pc, faddr := r.info, status := .faulted,
                   started := b, inbox := moves }

/-- spec/60_exceptions.md R213: which instruction can raise which cause: no instruction raises one outside
its row, and each entry of its row is raised by the operation in some state. -/
def Obligations.CausesOfEachInstruction : Prop :=
  (∀ (rd : ReservedDigits) (w : Int) (r : Reject), decode rd w = .error r →
    causeOf r = .malformedOpcode ∨ causeOf r = .illegalMode) ∧
  (∃ w, decode .fault w = .error .malformedOpcode) ∧ (∃ w, decode .fault w = .error .illegalMode) ∧
  (∀ (i : Instr) (s t : State), s.status = .running → exec i s = .next t → t.status = .faulted →
    mayRaise i t.fcause = true) ∧
  (∀ (i : Instr) (c : Cause), mayRaise i c = true →
    ∃ (j : Instr) (s t : State), j.opcode = i.opcode ∧ s.Inv ∧ s.status = .running ∧ s.pc < s.len ∧
      s.mem.get s.pc = encode j ∧ exec j s = .next t ∧ t.status = .faulted ∧ t.fcause = c) ∧
  (∀ s : State, s.status = .suspendedForInput →
    ∃ t, hostMove .exhausted s = .next t ∧ t.status = .faulted ∧ t.fcause = .inputExhausted)

/-- spec/40_decode_resolve_loop.md R123, spec/42_input_output.md R151: a step is taken only in Running; only
a reply moves a suspended engine, and in Halted and Faulted nothing moves it (reset aside,
spec/70_reset_and_hazards.md R250). A transition that is neither the awaited reply nor a reset leaves the
whole engine as it was; the other moves the host makes are refused or spent (the model's log entries 1
and 12). -/
def Obligations.OnlyRunningEnginesStep : Prop :=
  ∀ s : State, s.status ≠ .running →
    engineStep s = .next s ∧
    (s.inbox = [] → step s = .next s) ∧
    (∀ t, step s = .next t → t.status ≠ s.status → ∃ m rest, s.inbox = m :: rest ∧
      ((∃ p, m = .reset p) ∨ (s.status = .suspendedForInput ∧ ((∃ x, m = .value x) ∨ m = .exhausted)) ∨
        (s.status = .suspendedForOutput ∧ m = .ack))) ∧
    (∀ t, replyAwaited s = false → resetPending s = false → step s = .next t →
      t = s ∨ t = { s with inbox := s.inbox.tail }) ∧
    (s.status = .halted ∨ s.status = .faulted → replyAwaited s = false)

/-- spec/10_state.md R28: every transition of `status` is one of the table's, reset aside. -/
def Obligations.StatusTransitionsAreLegal : Prop :=
  ∀ s t : State, resetPending s = false → step s = .next t →
    t.status = s.status ∨ legalTransition s.status t.status = true

/-- spec/45_adjust_relative_base.md R202: ARB is the only writer of the base; reset sets it to 0. -/
def Obligations.OnlyArbWritesBase : Prop :=
  ∀ s t : State, step s = .next t →
    (t.rb ≠ s.rb → resetPending s = true ∨
      (s.status = .running ∧ t.status = .running ∧
        ∃ m, decode s.params.reserved (s.mem.get s.pc) = .ok (.arb m))) ∧
    (resetPending s = true → t.rb = 0)

/-- spec/10_state.md R31, spec/20_memory.md R63, R64: only a growth request before the run changes `len`,
and it raises it; nothing lowers it but a reset. No instruction changes it. -/
def Obligations.LengthFixedDuringRun : Prop :=
  (∀ s t : State, step s = .next t → resetPending s = false →
    s.len ≤ t.len ∧ (t.len ≠ s.len → s.started = false ∧ ∃ n rest, s.inbox = .grow n :: rest)) ∧
  (∀ (i : Instr) (s t : State), exec i s = .next t → t.len = s.len)

/-- spec/40_decode_resolve_loop.md R126: a Running engine halts in exactly two ways, told apart by the
cursor, which keeps its value, as memory does. -/
def Obligations.HaltsAreExplicitOrImplicit : Prop :=
  ∀ s t : State, s.status = .running → step s = .next t → t.status = .halted →
    t.mem = s.mem ∧ t.pc = s.pc ∧ t.rb = s.rb ∧
    (s.len ≤ s.pc ∨ (s.pc < s.len ∧ 0 ≤ s.mem.get s.pc ∧ s.mem.get s.pc % 100 = 99))

/-- spec/20_memory.md R71: a store is seen by the very next step. What ADD, MUL, LT or EQ stores, and what
the completion of IN stores, is the word the next step runs if it was stored where the cursor now stands (a
value that is no instruction's word faults there), and the literal the next instruction reads if it was stored
at one of its literal cells. That the next transition is the engine's own step, and that the host's reply stands
in the inbox, are the model's log entry 1. -/
def Obligations.StoredWordIsFetchedNext : Prop :=
  (∀ (s : State) (i : Instr) (d : Nat) (v : Int), s.status = .running → hostIdle s = true →
    s.pc < s.len → decode s.params.reserved (s.mem.get s.pc) = .ok i →
    firstFailure (checksOf i s) = none → storedBy i s = some (d, v) →
    ∃ t, step s = .next t ∧ t.pc = s.pc + 4 ∧ t.status = .running ∧ nextStepUses t d v) ∧
  (∀ (s : State) (x : Int) (rest : List HostMove), s.status = .suspendedForInput →
    s.inbox = .value x :: rest → s.ioAddr < s.len → inRange s.params.width x = true →
    hostIdle { s with status := .running, inbox := rest } = true →
    ∃ t, step s = .next t ∧ t.pc = s.pc + 2 ∧ t.status = .running ∧ nextStepUses t s.ioAddr x)

/-- spec/10_state.md R22, spec/43_jumps.md R184: how the cursor moves. The step of a Running engine moves it
by 4 at ADD, MUL, LT and EQ, by 2 at ARB, by 3 at a jump not taken, and to the value of operand 2 at a jump
taken; the engine's step at IN, OUT and HALT, the implicit halt and a fault leave it. The completion of IN
or OUT moves it by 2, and a reset writes 0. -/
def Obligations.CursorMoves : Prop :=
  ∀ s t : State, step s = .next t → t.pc ≠ s.pc →
    (resetPending s = true ∧ t.pc = 0) ∨
    (s.status = .running ∧ t.status = .running ∧ s.pc < s.len ∧
      ∃ i, decode s.params.reserved (s.mem.get s.pc) = .ok i ∧
        (∀ m, i ≠ .inp m) ∧ (∀ m, i ≠ .out m) ∧ i ≠ .halt ∧
        (takesJump i s = false → t.pc = s.pc + i.cells) ∧
        (takesJump i s = true → ∃ m1 m2, (i = .jt m1 m2 ∨ i = .jf m1 m2) ∧
          (t.pc : Int) = operand s m2 2)) ∨
    ((s.status = .suspendedForInput ∨ s.status = .suspendedForOutput) ∧ replyAwaited s = true ∧
      t.status = .running ∧ t.pc = s.pc + 2)

/-! ### Jumps -/

/-- spec/43_jumps.md R182: the three ranges of a taken jump's target, in every mode; a jump not taken never
faults on the value of its target. -/
def Obligations.JumpTargetRanges : Prop :=
  ∀ (s : State) (m1 m2 : Mode) (i : Instr), readable s m1 1 = true → readable s m2 2 = true →
    (((i = .jt m1 m2 ∧ operand s m1 1 ≠ 0) ∨ (i = .jf m1 m2 ∧ operand s m1 1 = 0)) →
      (0 ≤ operand s m2 2 → exec i s = .next { s with pc := (operand s m2 2).toNat }) ∧
      (operand s m2 2 < s.len → s.status = .running → hostIdle s = true → ∀ j : Instr,
        decode s.params.reserved (s.mem.get (operand s m2 2).toNat) = .ok j → 0 ≤ operand s m2 2 →
        step { s with pc := (operand s m2 2).toNat } =
          exec j { s with pc := (operand s m2 2).toNat, started := true }) ∧
      ((s.len : Int) ≤ operand s m2 2 → s.status = .running → hostIdle s = true →
        step { s with pc := (operand s m2 2).toNat } =
          .next { s with pc := (operand s m2 2).toNat, status := .halted, started := true }) ∧
      (operand s m2 2 < 0 →
        exec i s = .next (faultedAt s ⟨.outOfBounds, operand s m2 2⟩))) ∧
    (((i = .jt m1 m2 ∧ operand s m1 1 = 0) ∨ (i = .jf m1 m2 ∧ operand s m1 1 ≠ 0)) →
      exec i s = .next { s with pc := s.pc + 3 })

/-- spec/43_jumps.md R183: both operands are always resolved: a jump whose condition can be read but whose
target operand cannot faults, taken or not. -/
def Obligations.UntakenJumpStillResolves : Prop :=
  ∀ (s : State) (m1 m2 : Mode) (i : Instr), (i = .jt m1 m2 ∨ i = .jf m1 m2) →
    readable s m1 1 = true → readable s m2 2 = false →
    ∃ a : Int, exec i s = .next (faultedAt s ⟨.outOfBounds, a⟩) ∧ valid s a = false ∧
      (a = s.pc + 2 ∨ slotAddress s m2 2 = some a)

/-! ### Input, output and the host -/

/-- spec/42_input_output.md R154: the completion of IN with a value; R159: a value out of range is refused,
and so is an image with such an integer. -/
def Obligations.InputCompletion : Prop :=
  (∀ (s : State) (x : Int) (rest : List HostMove),
    s.status = .suspendedForInput → s.inbox = .value x :: rest →
    (s.ioAddr < s.len → inRange s.params.width x = true →
      step s = .next { s with
        mem := s.mem.set s.ioAddr x, pc := s.pc + 2, status := .running, inbox := rest }) ∧
    (inRange s.params.width x = false → step s = .refused .valueOutOfRange)) ∧
  (∀ (s : State) (p : List Int) (x : Int), p.length ≤ s.params.memMax → x ∈ p →
    inRange s.params.width x = false → hostMove (.reset p) s = .refused .imageOutOfRange)

/-- spec/42_input_output.md R155: the completion of IN without a value. -/
def Obligations.InputExhaustion : Prop :=
  ∀ (s : State) (rest : List HostMove),
    s.status = .suspendedForInput → s.inbox = .exhausted :: rest →
    step s = .next { s with status := .faulted, fcause := .inputExhausted, fpc := s.pc,
                            faddr := s.ioAddr, inbox := rest }

/-- spec/42_input_output.md R158: the completion of OUT: the cursor and the status, and nothing else. -/
def Obligations.OutputCompletion : Prop :=
  ∀ (s : State) (rest : List HostMove),
    s.status = .suspendedForOutput → s.inbox = .ack :: rest →
    step s = .next { s with pc := s.pc + 2, status := .running, inbox := rest }

/-- spec/42_input_output.md R151, R170: an engine whose host never replies stays suspended, its state
intact, for any number of steps. -/
def Obligations.UnansweredEngineWaits : Prop :=
  ∀ (s : State) (n : Nat), (s.status = .suspendedForInput ∨ s.status = .suspendedForOutput) →
    s.inbox = [] → repeatStep step n s = .next s

/-- spec/42_input_output.md R162; U10 of spec/93_implementation_defined.md: a reply to an engine that is
not waiting for it is refused. -/
def Obligations.MisplacedRepliesAreRefused : Prop :=
  ∀ (s : State) (x : Int),
    (s.status ≠ .suspendedForInput →
      hostMove (.value x) s = .refused .replyNotDue ∧ hostMove .exhausted s = .refused .replyNotDue) ∧
    (s.status ≠ .suspendedForOutput → hostMove .ack s = .refused .replyNotDue)

/-- spec/42_input_output.md R161: an engine emits only at IN and OUT, a Read at IN and at OUT the
operand's value, and only when the operand resolves. -/
def Obligations.OnlyInputAndOutputEmit : Prop :=
  ∀ (s t : State) (e : Event), s.status = .running → step s = .next t → t.event = some e →
    ∃ m, (decode s.params.reserved (s.mem.get s.pc) = .ok (.inp m) ∧ writable s m 1 = true ∧ e = .read) ∨
      (decode s.params.reserved (s.mem.get s.pc) = .ok (.out m) ∧ readable s m 1 = true ∧
        e = .write (operand s m 1))

/-- spec/20_memory.md R73, spec/10_state.md R29, R32: what the host reads, and when: a cell, and `len`, `pc`
and `rb`, exactly before the run and after its end; the three registers of the fault record exactly when
Faulted; a latch exactly in its window. That "before the run" ends with the first step is the model's bit
`started` (log entry 11). -/
def Obligations.InspectionWindows : Prop :=
  ∀ (s : State) (a : Nat),
    (∀ v, inspectCell a s = .ok v ↔ v = s.mem.get a ∧ a < s.len ∧
      ((s.status = .running ∧ s.started = false) ∨ s.status = .halted ∨ s.status = .faulted)) ∧
    (∀ v, inspectRegisters s = .ok v ↔ v = (s.len, s.pc, s.rb) ∧
      ((s.status = .running ∧ s.started = false) ∨ s.status = .halted ∨ s.status = .faulted)) ∧
    (∀ v, faultRecord s = .ok v ↔ v = (s.fcause, s.fpc, s.faddr) ∧ s.status = .faulted) ∧
    (∀ v, inputLatch s = .ok v ↔ v = s.ioAddr ∧ s.status = .suspendedForInput) ∧
    (∀ v, outputLatch s = .ok v ↔ v = s.ioVal ∧ s.status = .suspendedForOutput)

/-! ### Growth and reset -/

/-- spec/20_memory.md R60: growth appends cells of 0, keeps the others, and changes nothing else. The
invariant rules out memories that list cells beyond `len`. -/
def Obligations.GrowthAppendsZeroCells : Prop :=
  ∀ (s : State) (n : Nat), s.Inv → s.status = .running → s.started = false →
    s.len ≤ n → n ≤ s.params.memMax →
    ∃ t, hostMove (.grow n) s = .next t ∧ t = { s with len := n } ∧
      (∀ a, s.len ≤ a → a < n → t.mem.get a = 0) ∧ (∀ a, a < s.len → t.mem.get a = s.mem.get a)

/-- spec/20_memory.md R61: a request equal to the current size changes nothing; growth composes. -/
def Obligations.GrowthComposes : Prop :=
  ∀ (s : State) (n1 n2 : Nat), s.status = .running → s.started = false → s.len ≤ s.params.memMax →
    hostMove (.grow s.len) s = .next s ∧
    (s.len ≤ n1 → n1 < n2 → n2 ≤ s.params.memMax →
      ∃ t, hostMove (.grow n1) s = .next t ∧ hostMove (.grow n2) t = hostMove (.grow n2) s)

/-- spec/20_memory.md R62: a request below the current size is rejected with GrowthBelowSize. -/
def Obligations.GrowthBelowSizeFaults : Prop :=
  ∀ (s : State) (n : Nat), s.status = .running → s.started = false → n < s.len →
    hostMove (.grow n) s = .next { s with status := .faulted, fcause := .growthBelowSize,
                                          fpc := s.pc, faddr := n }

/-- spec/20_memory.md R63, R65: growth has a transition between reset and the first step only, and none
above MEM_MAX. -/
def Obligations.GrowthRefusedOutsideItsWindow : Prop :=
  ∀ (s : State) (n : Int),
    ((s.status ≠ .running ∨ s.started = true) → hostMove (.grow n) s = .refused .growNotBeforeRun) ∧
    (s.status = .running → s.started = false → s.len ≤ s.params.memMax → (s.params.memMax : Int) < n →
      hostMove (.grow n) s = .refused .growBeyondMax)

/-- spec/70_reset_and_hazards.md R250, spec/10_state.md R36: reset in any status loads the image verbatim
at index 0 and gives every register the spec states its reset value. That the run has not begun is the model's
bit `started` (log entry 11), and that the parameters are kept is the model's choice (log entry 15). -/
def Obligations.ResetLoadsImage : Prop :=
  ∀ (s : State) (p : List Int), p.length ≤ s.params.memMax →
    (∀ v ∈ p, inRange s.params.width v = true) →
    ∃ t, hostMove (.reset p) s = .next t ∧ t.len = p.length ∧ t.pc = 0 ∧ t.rb = 0 ∧
      t.status = .running ∧ t.started = false ∧ t.params = s.params ∧
      (∀ i, t.mem.get i = p.getD i 0)

/-- spec/70_reset_and_hazards.md R250: reset discards the whole previous state of the engine. -/
def Obligations.ResetForgets : Prop :=
  ∀ (s s' : State) (p : List Int), s.params = s'.params → s.inbox = s'.inbox →
    hostMove (.reset p) s = hostMove (.reset p) s'

/-- spec/10_state.md R36: the values the spec states for reset, with the empty image (the model's log
entry 8), the parameters' stated defaults (spec/00_scope.md R6, R8), and the first step, which halts
(spec/46_halt.md R207). -/
def Obligations.ResetStateValues : Prop :=
  State.reset.pc = 0 ∧ State.reset.rb = 0 ∧ State.reset.status = .running ∧ State.reset.len = 0 ∧
  State.reset.mem = [] ∧ State.reset.params.width = 64 ∧ State.reset.params.reserved = .fault ∧
  step State.reset = .next { State.reset with status := .halted, started := true }

/-! ### Invariants -/

/-- The invariant of Safety.lean (spec/00_scope.md R6, R7; spec/10_state.md R21, R24, R31, R32;
spec/20_memory.md R50) holds at reset. -/
def Obligations.ResetMeetsInvariant : Prop := State.reset.Inv

/-- Every transition keeps the invariant, from every state that meets it and whatever the host does. -/
def Obligations.StepKeepsInvariant : Prop :=
  ∀ s t : State, s.Inv → step s = .next t → t.Inv

/-- spec/00_scope.md R6, R7, R8: no transition changes the parameters (the model's log entry 2). -/
def Obligations.ParametersNeverChange : Prop :=
  ∀ (s t : State) (n : Nat), repeatStep step n s = .next t → t.params = s.params

/-! ### The adapters -/

/-- spec/42_input_output.md R169: up to the point where the queue runs out, the callback convention with a
handler that pops a queue and appends outputs gives the states and outputs of the scripted convention. -/
def Obligations.ScriptedEqualsQueueHandler : Prop :=
  ∀ (n : Nat) (r e : Scripted), runScripted n r = .next e →
    (∀ k, k < n → ∀ e', runScripted k r = .next e' →
      ¬ (e'.engine.status = .suspendedForInput ∧ e'.queue = [])) →
    runWithHandler queueHandler n ⟨r.engine, (r.queue, r.outputs)⟩
      = .next ⟨e.engine, (e.queue, e.outputs)⟩

/-- spec/42_input_output.md R163: inputs are consumed left to right, and outputs are only appended. -/
def Obligations.ScriptedQueuesAreOrdered : Prop :=
  ∀ (n : Nat) (r e : Scripted), runScripted n r = .next e →
    ∃ used emitted, r.queue = used ++ e.queue ∧ e.outputs = r.outputs ++ emitted

/-- spec/42_input_output.md R163, R164; spec/40_decode_resolve_loop.md R126: with inputs that fit a cell
the scripted convention is never refused and never stuck: from every state that meets the invariant it
answers a next state after any number of turns, which meets the invariant again. -/
def Obligations.ScriptedRunsAlwaysGoOn : Prop :=
  ∀ (n : Nat) (r : Scripted), r.engine.Inv →
    (∀ x ∈ r.queue, inRange r.engine.params.width x = true) →
    ∃ e, runScripted n r = .next e ∧ e.engine.Inv

/-- spec/42_input_output.md R168: `next_output` answers Some(v) with the engine left suspended at the output
v, None with the engine Halted, and fails with the fault record of the engine, Faulted; an output left from the
previous call is acknowledged first; a supply that is a queue is taken from its head, and what was not taken is
handed back. Fuel is the model's (log entry 13). -/
def Obligations.NextOutputOutcomes : Prop :=
  (∀ (σ : Type) (take : σ → Option (Int × σ)) (n : Nat) (r e : Supplied σ) (o : NextOutput),
    nextOutput take n r = .next (o, e) →
    (∀ v, o = .some v → e.engine.status = .suspendedForOutput ∧ e.engine.event = some (.write v)) ∧
    (o = .none → e.engine.status = .halted) ∧
    (∀ c p a, o = .failed c p a → e.engine.status = .faulted ∧ e.engine.fcause = c ∧
      e.engine.fpc = p ∧ e.engine.faddr = a) ∧
    (o = .unfinished → e.engine.status = .running ∨ e.engine.status = .suspendedForInput)) ∧
  (∀ (σ : Type) (take : σ → Option (Int × σ)) (n : Nat) (r : Supplied σ),
    r.engine.status = .suspendedForOutput →
    nextOutput take n r = nextOutput take n { r with engine := outputTaken r.engine }) ∧
  (∀ (n : Nat) (r e : Supplied (List Int)) (o : NextOutput),
    nextOutput takeQueue n r = .next (o, e) → ∃ used, r.supply = used ++ e.supply)

/-- spec/60_exceptions.md R232, spec/20_memory.md R74: engines share nothing: a step of one leaves the
others as they are, and the order of two engines' steps does not matter. -/
def Obligations.EnginesAreIndependent : Prop :=
  ∀ (i j : Nat) (es a b : List State), i ≠ j → stepAt i es = .next a → stepAt j a = .next b →
    (∀ k, k ≠ i → a[k]? = es[k]?) ∧ ∃ c, stepAt j es = .next c ∧ stepAt i c = .next b

/-- spec/60_exceptions.md R233: the feedback ring. It starts with `first` true for every engine and at engine
0. A pass is `next_output` of the engine whose turn it is, offered its phase setting and then the signal the
first time and the signal alone after; its `first` is cleared, no other engine is touched, an output becomes
the signal that the next engine round the ring is offered, and at no further output the ring returns the signal
it had. Fuel, and that the supply is a finite queue, are the model's (log entry 13). -/
def Obligations.RingPassThreadsTheSignal : Prop :=
  (∀ (es : List (State × Int)) (v : Int),
    (startRing es v).signal = v ∧ (startRing es v).next = 0 ∧
    ∀ k : Nat, (startRing es v).members[k]? = es[k]?.map (fun e : State × Int => (⟨e.1, e.2, true⟩ : Member))) ∧
  (∀ (fuel : Nat) (r : Ring) (m : Member) (o : NextOutput) (e : Supplied (List Int)),
    r.members[r.next]? = some m →
    nextOutput takeQueue fuel ⟨m.engine, if m.first then [m.phase, r.signal] else [r.signal]⟩
      = .next (o, e) →
    ∃ ms : List Member,
      ms[r.next]? = some ⟨e.engine, m.phase, false⟩ ∧ (∀ k : Nat, k ≠ r.next → ms[k]? = r.members[k]?) ∧
      (∀ v, o = .some v → e.engine.event = some (.write v) ∧
        ringPass fuel r = .next (.goes ⟨ms, v, (r.next + 1) % r.members.length⟩)) ∧
      (o = .none → e.engine.status = .halted ∧
        ringPass fuel r = .next (.result r.signal ⟨ms, r.signal, r.next⟩)) ∧
      (∀ c p a, o = .failed c p a → e.engine.status = .faulted ∧
        ringPass fuel r = .next (.failed ⟨ms, r.signal, r.next⟩)))
end

