-- ==== Sys2Proof/Laws/State.lean ====
section
/-! SUPPORT. What each named update of the state does to each field, once, by rfl: later proofs read these
and unfold no record update. -/

namespace Sys2Proof.Machine

section takeFault
variable (r : Raise) (s : State)
@[simp] theorem takeFault_params : (takeFault r s).params = s.params := rfl
@[simp] theorem takeFault_mem : (takeFault r s).mem = s.mem := rfl
@[simp] theorem takeFault_len : (takeFault r s).len = s.len := rfl
@[simp] theorem takeFault_pc : (takeFault r s).pc = s.pc := rfl
@[simp] theorem takeFault_rb : (takeFault r s).rb = s.rb := rfl
@[simp] theorem takeFault_status : (takeFault r s).status = .faulted := rfl
@[simp] theorem takeFault_fcause : (takeFault r s).fcause = r.cause := rfl
@[simp] theorem takeFault_fpc : (takeFault r s).fpc = s.pc := rfl
@[simp] theorem takeFault_faddr : (takeFault r s).faddr = r.info := rfl
@[simp] theorem takeFault_ioAddr : (takeFault r s).ioAddr = s.ioAddr := rfl
@[simp] theorem takeFault_ioVal : (takeFault r s).ioVal = s.ioVal := rfl
@[simp] theorem takeFault_started : (takeFault r s).started = s.started := rfl
@[simp] theorem takeFault_inbox : (takeFault r s).inbox = s.inbox := rfl
/-- Fault entry is the transition the spec describes (spec/60_exceptions.md R219). -/
theorem takeFault_eq_faultedAt : takeFault r s = faultedAt s r := rfl
end takeFault

section advancePc
variable (s : State) (n : Nat)
@[simp] theorem advancePc_params : (advancePc s n).params = s.params := rfl
@[simp] theorem advancePc_mem : (advancePc s n).mem = s.mem := rfl
@[simp] theorem advancePc_len : (advancePc s n).len = s.len := rfl
@[simp] theorem advancePc_pc : (advancePc s n).pc = s.pc + n := rfl
@[simp] theorem advancePc_rb : (advancePc s n).rb = s.rb := rfl
@[simp] theorem advancePc_status : (advancePc s n).status = s.status := rfl
@[simp] theorem advancePc_fcause : (advancePc s n).fcause = s.fcause := rfl
@[simp] theorem advancePc_fpc : (advancePc s n).fpc = s.fpc := rfl
@[simp] theorem advancePc_faddr : (advancePc s n).faddr = s.faddr := rfl
@[simp] theorem advancePc_ioAddr : (advancePc s n).ioAddr = s.ioAddr := rfl
@[simp] theorem advancePc_ioVal : (advancePc s n).ioVal = s.ioVal := rfl
@[simp] theorem advancePc_started : (advancePc s n).started = s.started := rfl
@[simp] theorem advancePc_inbox : (advancePc s n).inbox = s.inbox := rfl
end advancePc

section enterHalted
variable (s : State)
@[simp] theorem enterHalted_params : (enterHalted s).params = s.params := rfl
@[simp] theorem enterHalted_mem : (enterHalted s).mem = s.mem := rfl
@[simp] theorem enterHalted_len : (enterHalted s).len = s.len := rfl
@[simp] theorem enterHalted_pc : (enterHalted s).pc = s.pc := rfl
@[simp] theorem enterHalted_rb : (enterHalted s).rb = s.rb := rfl
@[simp] theorem enterHalted_status : (enterHalted s).status = .halted := rfl
@[simp] theorem enterHalted_fcause : (enterHalted s).fcause = s.fcause := rfl
@[simp] theorem enterHalted_fpc : (enterHalted s).fpc = s.fpc := rfl
@[simp] theorem enterHalted_faddr : (enterHalted s).faddr = s.faddr := rfl
@[simp] theorem enterHalted_ioAddr : (enterHalted s).ioAddr = s.ioAddr := rfl
@[simp] theorem enterHalted_ioVal : (enterHalted s).ioVal = s.ioVal := rfl
@[simp] theorem enterHalted_started : (enterHalted s).started = s.started := rfl
@[simp] theorem enterHalted_inbox : (enterHalted s).inbox = s.inbox := rfl
end enterHalted

section begin
variable (s : State)
@[simp] theorem begin_params : (begin s).params = s.params := rfl
@[simp] theorem begin_mem : (begin s).mem = s.mem := rfl
@[simp] theorem begin_len : (begin s).len = s.len := rfl
@[simp] theorem begin_pc : (begin s).pc = s.pc := rfl
@[simp] theorem begin_rb : (begin s).rb = s.rb := rfl
@[simp] theorem begin_status : (begin s).status = s.status := rfl
@[simp] theorem begin_fcause : (begin s).fcause = s.fcause := rfl
@[simp] theorem begin_fpc : (begin s).fpc = s.fpc := rfl
@[simp] theorem begin_faddr : (begin s).faddr = s.faddr := rfl
@[simp] theorem begin_ioAddr : (begin s).ioAddr = s.ioAddr := rfl
@[simp] theorem begin_ioVal : (begin s).ioVal = s.ioVal := rfl
@[simp] theorem begin_started : (begin s).started = true := rfl
@[simp] theorem begin_inbox : (begin s).inbox = s.inbox := rfl
/-- A run that has begun stays begun. -/
theorem begin_of_started {s : State} (h : s.started = true) : begin s = s := by
  cases s; simp_all [begin]
end begin

section resetWith
variable (p : List Int) (s : State)
@[simp] theorem resetWith_params : (resetWith p s).params = s.params := rfl
@[simp] theorem resetWith_mem : (resetWith p s).mem = Memory.ofImage 0 p := rfl
@[simp] theorem resetWith_len : (resetWith p s).len = p.length := rfl
@[simp] theorem resetWith_pc : (resetWith p s).pc = 0 := rfl
@[simp] theorem resetWith_rb : (resetWith p s).rb = 0 := rfl
@[simp] theorem resetWith_status : (resetWith p s).status = .running := rfl
@[simp] theorem resetWith_fcause : (resetWith p s).fcause = .malformedOpcode := rfl
@[simp] theorem resetWith_fpc : (resetWith p s).fpc = 0 := rfl
@[simp] theorem resetWith_faddr : (resetWith p s).faddr = 0 := rfl
@[simp] theorem resetWith_ioAddr : (resetWith p s).ioAddr = 0 := rfl
@[simp] theorem resetWith_ioVal : (resetWith p s).ioVal = 0 := rfl
@[simp] theorem resetWith_started : (resetWith p s).started = false := rfl
@[simp] theorem resetWith_inbox : (resetWith p s).inbox = s.inbox := rfl
end resetWith

section outputTaken
variable (s : State)
@[simp] theorem outputTaken_params : (outputTaken s).params = s.params := rfl
@[simp] theorem outputTaken_mem : (outputTaken s).mem = s.mem := rfl
@[simp] theorem outputTaken_len : (outputTaken s).len = s.len := rfl
@[simp] theorem outputTaken_pc : (outputTaken s).pc = s.pc + 2 := rfl
@[simp] theorem outputTaken_rb : (outputTaken s).rb = s.rb := rfl
@[simp] theorem outputTaken_status : (outputTaken s).status = .running := rfl
@[simp] theorem outputTaken_fcause : (outputTaken s).fcause = s.fcause := rfl
@[simp] theorem outputTaken_fpc : (outputTaken s).fpc = s.fpc := rfl
@[simp] theorem outputTaken_faddr : (outputTaken s).faddr = s.faddr := rfl
@[simp] theorem outputTaken_ioAddr : (outputTaken s).ioAddr = s.ioAddr := rfl
@[simp] theorem outputTaken_ioVal : (outputTaken s).ioVal = s.ioVal := rfl
@[simp] theorem outputTaken_started : (outputTaken s).started = s.started := rfl
@[simp] theorem outputTaken_inbox : (outputTaken s).inbox = s.inbox := rfl
end outputTaken

end Sys2Proof.Machine
end

