-- ==== Sys2Proof/Laws/Memory.lean ====
section
/-! SUPPORT. Memory as data: a read after a write, the canonical form kept by every operation, and the
cells an image gives. -/

namespace Sys2Proof.Machine

/-! ### Reading after writing -/

theorem Memory.get_erase_same (m : Memory) (a : Nat) : (m.erase a).get a = 0 := by
  induction m with
  | nil => rfl
  | cons c m ih =>
    obtain ⟨b, w⟩ := c
    by_cases h : b = a
    · simpa [Memory.erase, h] using ih
    · have h' : ¬ a = b := fun e => h e.symm
      simpa [Memory.erase, h, Memory.get, h'] using ih

theorem Memory.get_erase_ne (m : Memory) {a c : Nat} (h : c ≠ a) :
    (m.erase a).get c = m.get c := by
  induction m with
  | nil => rfl
  | cons e m ih =>
    obtain ⟨b, w⟩ := e
    by_cases hb : b = a
    · subst hb; simpa [Memory.erase, Memory.get, h] using ih
    · by_cases hc : c = b
      · simp [Memory.erase, hb, Memory.get, hc]
      · simpa [Memory.erase, hb, Memory.get, hc] using ih

theorem Memory.get_insert_same (m : Memory) (a : Nat) (v : Int) : (m.insert a v).get a = v := by
  induction m with
  | nil => simp [Memory.insert, Memory.get]
  | cons e m ih =>
    obtain ⟨b, w⟩ := e
    by_cases h1 : a < b
    · simp [Memory.insert, Memory.get, h1]
    · by_cases h2 : a = b
      · simp [Memory.insert, Memory.get, h2]
      · simpa [Memory.insert, h1, h2, Memory.get] using ih

theorem Memory.get_insert_ne (m : Memory) (v : Int) {a c : Nat} (h : c ≠ a) :
    (m.insert a v).get c = m.get c := by
  induction m with
  | nil => simp [Memory.insert, Memory.get, h]
  | cons e m ih =>
    obtain ⟨b, w⟩ := e
    by_cases h1 : a < b
    · simp [Memory.insert, h1, Memory.get, h]
    · by_cases h2 : a = b
      · subst h2; simp [Memory.insert, Memory.get, h]
      · by_cases hc : c = b
        · simp [Memory.insert, h1, h2, Memory.get, hc]
        · simpa [Memory.insert, h1, h2, Memory.get, hc] using ih

/-- A read after a write to the same cell gives the value written. -/
@[simp] theorem Memory.get_set_same (m : Memory) (a : Nat) (v : Int) : (m.set a v).get a = v := by
  unfold Memory.set
  split
  next h => rw [Memory.get_erase_same, h]
  next => exact Memory.get_insert_same m a v

/-- A write leaves every other cell alone. -/
theorem Memory.get_set_ne (m : Memory) (v : Int) {a c : Nat} (h : c ≠ a) :
    (m.set a v).get c = m.get c := by
  unfold Memory.set
  split
  · exact Memory.get_erase_ne m h
  · exact Memory.get_insert_ne m v h

/-! ### The canonical form -/

theorem Memory.risingFrom_mono {m : Memory} {lo lo' : Nat} (h : lo' ≤ lo)
    (hm : Memory.risingFrom lo m = true) : Memory.risingFrom lo' m = true := by
  cases m with
  | nil => rfl
  | cons e m =>
    simp only [Memory.risingFrom, Bool.and_eq_true, decide_eq_true_eq] at hm ⊢
    exact ⟨⟨Nat.le_trans h hm.1.1, hm.1.2⟩, hm.2⟩

theorem Memory.risingFrom_erase {m : Memory} {lo : Nat} (a : Nat)
    (hm : Memory.risingFrom lo m = true) : Memory.risingFrom lo (m.erase a) = true := by
  induction m generalizing lo with
  | nil => rfl
  | cons e m ih =>
    obtain ⟨b, w⟩ := e
    simp only [Memory.risingFrom, Bool.and_eq_true, decide_eq_true_eq] at hm
    by_cases hb : b = a
    · have := ih hm.2
      simpa [Memory.erase, hb] using Memory.risingFrom_mono (by omega) this
    · have he : Memory.erase ((b, w) :: m) a = (b, w) :: Memory.erase m a := by
        simp [Memory.erase, hb]
      rw [he]
      simp [Memory.risingFrom, hm.1.1, hm.1.2, ih hm.2]

theorem Memory.risingFrom_insert {m : Memory} {lo : Nat} {a : Nat} {v : Int} (hv : v ≠ 0)
    (ha : lo ≤ a) (hm : Memory.risingFrom lo m = true) :
    Memory.risingFrom lo (m.insert a v) = true := by
  induction m generalizing lo with
  | nil => simp [Memory.insert, Memory.risingFrom, ha, hv]
  | cons e m ih =>
    obtain ⟨b, w⟩ := e
    simp only [Memory.risingFrom, Bool.and_eq_true, decide_eq_true_eq] at hm
    by_cases h1 : a < b
    · simp [Memory.insert, h1, Memory.risingFrom, ha, hv, hm.1.2, hm.2, Nat.succ_le_of_lt h1]
    · by_cases h2 : a = b
      · subst h2; simp [Memory.insert, Memory.risingFrom, ha, hv, hm.2]
      · have := ih (lo := b + 1) (by omega) hm.2
        simp [Memory.insert, h1, h2, Memory.risingFrom, hm.1.1, hm.1.2, this]

/-- A write keeps the canonical form. -/
theorem Memory.wf_set {m : Memory} (a : Nat) (v : Int) (hm : m.wf = true) :
    (m.set a v).wf = true := by
  unfold Memory.wf Memory.set at *
  split
  · exact Memory.risingFrom_erase a hm
  · exact Memory.risingFrom_insert ‹_› (Nat.zero_le a) hm

theorem Memory.risingFrom_ofImage (p : List Int) (i : Nat) :
    Memory.risingFrom i (Memory.ofImage i p) = true := by
  induction p generalizing i with
  | nil => rfl
  | cons v p ih =>
    unfold Memory.ofImage
    split
    · exact Memory.risingFrom_mono (Nat.le_succ i) (ih (i + 1))
    · simp [Memory.risingFrom, *]

/-- An image's memory is in canonical form. -/
theorem Memory.wf_ofImage (p : List Int) : (Memory.ofImage 0 p).wf = true :=
  Memory.risingFrom_ofImage p 0

/-- In canonical form an index below the first listed one reads as 0. -/
theorem Memory.get_below {m : Memory} {lo a : Nat} (h : Memory.risingFrom lo m = true) (ha : a < lo) :
    m.get a = 0 := by
  induction m generalizing lo with
  | nil => rfl
  | cons e m ih =>
    obtain ⟨b, w⟩ := e
    simp only [Memory.risingFrom, Bool.and_eq_true, decide_eq_true_eq] at h
    have : ¬ a = b := by omega
    simpa [Memory.get, this] using ih h.2 (by omega)

/-- Equal memories are equal data: two canonical lists that read alike are one list. -/
theorem Memory.ext_of_risingFrom {m m' : Memory} {lo : Nat} (h : Memory.risingFrom lo m = true)
    (h' : Memory.risingFrom lo m' = true) (hg : ∀ a, m.get a = m'.get a) : m = m' := by
  induction m generalizing lo m' with
  | nil =>
    cases m' with
    | nil => rfl
    | cons e m' =>
      obtain ⟨b, w⟩ := e
      have := hg b
      simp_all [Memory.get, Memory.risingFrom]
  | cons e m ih =>
    obtain ⟨b, w⟩ := e
    cases m' with
    | nil => have := hg b; simp_all [Memory.get, Memory.risingFrom]
    | cons e' m' =>
      obtain ⟨b', w'⟩ := e'
      simp only [Memory.risingFrom, Bool.and_eq_true, decide_eq_true_eq] at h h'
      have hb : b = b' := by
        rcases Nat.lt_trichotomy b b' with hlt | rfl | hlt
        · have := hg b
          have hz := Memory.get_below h'.2 (show b < b' + 1 by omega)
          have : ¬ b = b' := by omega
          simp_all [Memory.get]
        · rfl
        · have := hg b'
          have hz := Memory.get_below h.2 (show b' < b + 1 by omega)
          have : ¬ b' = b := by omega
          simp_all [Memory.get]
      subst hb
      have hw : w = w' := by simpa [Memory.get] using hg b
      subst hw
      have : m = m' := ih h.2 h'.2 (fun a => by
        by_cases ha : a = b
        · subst ha
          rw [Memory.get_below h.2 (Nat.lt_succ_self a), Memory.get_below h'.2 (Nat.lt_succ_self a)]
        · simpa [Memory.get, ha] using hg a)
      rw [this]

/-- Canonical memories are equal exactly when every cell reads alike. -/
theorem Memory.ext_of_wf {m m' : Memory} (h : m.wf = true) (h' : m'.wf = true)
    (hg : ∀ a, m.get a = m'.get a) : m = m' :=
  Memory.ext_of_risingFrom h h' hg

/-! ### Cells that exist and hold cell values -/

theorem Memory.fits_cons {w len : Nat} {c : Nat × Int} {m : Memory} :
    Memory.fits w len (c :: m) = true ↔
      (c.1 < len ∧ inRange w c.2 = true) ∧ Memory.fits w len m = true := by
  simp [Memory.fits]

theorem Memory.fits_erase {w len : Nat} {m : Memory} (a : Nat) (h : m.fits w len = true) :
    (m.erase a).fits w len = true := by
  simp only [Memory.fits, Memory.erase, List.all_eq_true, List.mem_filter] at *
  exact fun c hc => h c hc.1

theorem Memory.fits_insert {w len : Nat} {m : Memory} {a : Nat} {v : Int} (ha : a < len)
    (hv : inRange w v = true) (h : m.fits w len = true) : (m.insert a v).fits w len = true := by
  induction m with
  | nil => simp [Memory.insert, Memory.fits, ha, hv]
  | cons e m ih =>
    have h' := Memory.fits_cons.1 h
    obtain ⟨b, x⟩ := e
    simp only [Memory.insert]
    split
    · exact Memory.fits_cons.2 ⟨⟨ha, hv⟩, h⟩
    · split
      · exact Memory.fits_cons.2 ⟨⟨ha, hv⟩, h'.2⟩
      · exact Memory.fits_cons.2 ⟨h'.1, ih h'.2⟩

/-- A write of a cell value to a cell that exists keeps every cell a cell. -/
theorem Memory.fits_set {w len : Nat} {m : Memory} {a : Nat} {v : Int} (ha : a < len)
    (hv : inRange w v = true) (h : m.fits w len = true) : (m.set a v).fits w len = true := by
  unfold Memory.set
  split
  · exact Memory.fits_erase a h
  · exact Memory.fits_insert ha hv h

theorem Memory.fits_mono {w len len' : Nat} {m : Memory} (hl : len ≤ len')
    (h : m.fits w len = true) : m.fits w len' = true := by
  simp only [Memory.fits, List.all_eq_true, Bool.and_eq_true, decide_eq_true_eq] at *
  exact fun c hc => ⟨Nat.lt_of_lt_of_le (h c hc).1 hl, (h c hc).2⟩

theorem inRange_iff {w : Nat} {v : Int} : inRange w v = true ↔ intMin w ≤ v ∧ v ≤ intMax w := by
  simp [inRange]

/-- 0 is a cell value at every width. -/
theorem inRange_zero (w : Nat) : inRange w 0 = true := by
  have h : 0 < 2 ^ (w - 1) := Nat.two_pow_pos _
  rw [inRange_iff, intMin, intMax]
  generalize 2 ^ (w - 1) = n at h
  omega

/-- Every cell reads as a cell value (spec/20_memory.md R50). -/
theorem Memory.inRange_get {w len : Nat} {m : Memory} (h : m.fits w len = true) (a : Nat) :
    inRange w (m.get a) = true := by
  induction m with
  | nil => exact inRange_zero w
  | cons e m ih =>
    have h' := Memory.fits_cons.1 h
    obtain ⟨b, x⟩ := e
    by_cases hb : a = b
    · simpa [Memory.get, hb] using h'.1.2
    · simpa [Memory.get, hb] using ih h'.2

/-- A cell that does not exist is not listed. -/
theorem Memory.get_beyond {w len : Nat} {m : Memory} (h : m.fits w len = true) {a : Nat}
    (ha : len ≤ a) : m.get a = 0 := by
  induction m with
  | nil => rfl
  | cons e m ih =>
    have h' := Memory.fits_cons.1 h
    obtain ⟨b, x⟩ := e
    have hb : ¬ a = b := by have := h'.1.1; simp only at this; omega
    simpa [Memory.get, hb] using ih h'.2

theorem Memory.fits_ofImage {w : Nat} {p : List Int} (hp : p.all (inRange w) = true) (i : Nat) :
    (Memory.ofImage i p).fits w (i + p.length) = true := by
  induction p generalizing i with
  | nil => rfl
  | cons v p ih =>
    simp only [List.all_cons, Bool.and_eq_true] at hp
    have h := ih hp.2 (i + 1)
    have hl : i + 1 + p.length = i + (v :: p).length := by simp only [List.length_cons]; omega
    rw [hl] at h
    unfold Memory.ofImage
    split
    · exact h
    · exact Memory.fits_cons.2 ⟨⟨by simp, hp.1⟩, h⟩

/-- The image stands verbatim from index `i` on (spec/70_reset_and_hazards.md R250). -/
theorem Memory.get_ofImage (p : List Int) (i k : Nat) :
    (Memory.ofImage i p).get (i + k) = p.getD k 0 := by
  induction p generalizing i k with
  | nil => rfl
  | cons v p ih =>
    unfold Memory.ofImage
    cases k with
    | zero =>
      split
      next h =>
        subst h
        exact Memory.get_below (Memory.risingFrom_ofImage p (i + 1)) (Nat.lt_succ_self i)
      next => simp [Memory.get]
    | succ k =>
      have h := ih (i + 1) k
      have he : i + 1 + k = i + (k + 1) := by omega
      rw [he] at h
      split
      · simpa using h
      · have : ¬ i + (k + 1) = i := by omega
        simpa [Memory.get, this] using h

end Sys2Proof.Machine
end

