-- ==== Sys2Proof/Laws/Operands.lean ====
section
/-! SUPPORT. One spec lemma per shared operation: what the resolver and the common courses of the
instructions answer, in the terms of Safety.lean. Later proofs cite these and unfold no resolver. -/

namespace Sys2Proof.Machine

/-! ### The list of checks -/

theorem firstFailure_append (l l' : List Check) :
    firstFailure (l ++ l') = (firstFailure l).orElse (fun _ => firstFailure l') := by
  induction l with
  | nil => rfl
  | cons c l ih =>
    obtain ⟨bad, cause, info⟩ := c
    cases bad
    · simpa [firstFailure] using ih
    · simp [firstFailure]

theorem firstFailure_append_none {l l' : List Check} :
    firstFailure (l ++ l') = none ↔ firstFailure l = none ∧ firstFailure l' = none := by
  rw [firstFailure_append]; cases firstFailure l <;> simp

theorem firstFailure_append_some {l l' : List Check} {r : Raise} :
    firstFailure (l ++ l') = some r ↔
      firstFailure l = some r ∨ (firstFailure l = none ∧ firstFailure l' = some r) := by
  rw [firstFailure_append]; cases firstFailure l <;> simp

theorem firstFailure_overflow_none {s : State} {v : Int} :
    firstFailure [overflowCheck s v] = none ↔ inRange s.params.width v = true := by
  simp [firstFailure, overflowCheck, inRange_iff]

theorem firstFailure_overflow_some {s : State} {v : Int} {r : Raise} :
    firstFailure [overflowCheck s v] = some r ↔
      inRange s.params.width v = false ∧ r = ⟨.overflow, v⟩ := by
  cases hr : inRange s.params.width v
  · have hb : v < intMin s.params.width ∨ intMax s.params.width < v := by
      have := mt inRange_iff.2 (by simp [hr] : ¬ inRange s.params.width v = true)
      omega
    simp [firstFailure, overflowCheck, hb, eq_comm]
  · have hb : ¬ (v < intMin s.params.width ∨ intMax s.params.width < v) := by
      have := inRange_iff.1 hr
      omega
    simp [firstFailure, overflowCheck, hb]

/-! ### Operands -/

theorem inBounds_eq_valid (s : State) (a : Int) : inBounds s a = valid s a := by
  simp [inBounds, valid]

theorem valid_iff {s : State} {a : Int} : valid s a = true ↔ 0 ≤ a ∧ a < s.len := by
  simp [valid]

theorem valid_lit {s : State} {k : Nat} : valid s (s.pc + k) = true ↔ s.pc + k < s.len := by
  rw [valid_iff]; omega

theorem memRead_eq (s : State) (a : Int) :
    memRead s a = if valid s a then .ok (s.mem.get a.toNat) else .error ⟨.outOfBounds, a⟩ := by
  rw [memRead, inBounds_eq_valid]

theorem lit_eq (s : State) (k : Nat) :
    lit s k = if valid s (s.pc + k) then .ok (literal s k) else .error ⟨.outOfBounds, s.pc + k⟩ := by
  rw [lit, memRead_eq, literal]
  have : ((s.pc : Int) + k).toNat = s.pc + k := by omega
  rw [this]

theorem checkAddress_eq (s : State) (a : Int) :
    checkAddress s a = if valid s a then .ok a.toNat else .error ⟨.outOfBounds, a⟩ := by
  rw [checkAddress, inBounds_eq_valid]

/-- A source operand is the first failure of its checks, or else its value. -/
theorem readValue_eq (s : State) (m : Mode) (k : Nat) :
    readValue s m k = match firstFailure (sourceChecks s m k) with
      | some r => .error r
      | none => .ok (operand s m k) := by
  cases hl : valid s (s.pc + k)
  · simp [readValue, lit_eq, hl, sourceChecks, literalCheck, firstFailure, bind, Except.bind]
  · cases m with
    | immediate =>
      simp [readValue, lit_eq, hl, sourceChecks, literalCheck, firstFailure, bind, Except.bind,
        operand, slotAddress]
    | position =>
      cases ha : valid s (literal s k) <;>
        simp [readValue, lit_eq, hl, sourceChecks, literalCheck, firstFailure, bind, Except.bind,
          operand, slotAddress, memRead_eq, ha]
    | relative =>
      cases ha : valid s (s.rb + literal s k) <;>
        simp [readValue, lit_eq, hl, sourceChecks, literalCheck, firstFailure, bind, Except.bind,
          operand, slotAddress, memRead_eq, ha]

theorem source_none {s : State} {m : Mode} {k : Nat} :
    firstFailure (sourceChecks s m k) = none ↔ readable s m k = true := by
  cases hl : valid s (s.pc + k)
  · simp [readable, hl, sourceChecks, literalCheck, firstFailure]
  · cases ha : slotAddress s m k with
    | none => simp [readable, hl, sourceChecks, literalCheck, firstFailure, ha]
    | some a => cases hv : valid s a <;>
        simp [readable, hl, sourceChecks, literalCheck, firstFailure, ha, hv]

theorem readValue_ok {s : State} {m : Mode} {k : Nat} (h : readable s m k = true) :
    readValue s m k = .ok (operand s m k) := by
  rw [readValue_eq, source_none.2 h]

theorem readValue_error {s : State} {m : Mode} {k : Nat} {r : Raise}
    (h : firstFailure (sourceChecks s m k) = some r) : readValue s m k = .error r := by
  rw [readValue_eq, h]

theorem readValue_inv {s : State} {m : Mode} {k : Nat} {v : Int} (h : readValue s m k = .ok v) :
    readable s m k = true ∧ v = operand s m k := by
  rw [readValue_eq] at h
  cases hf : firstFailure (sourceChecks s m k) with
  | none => rw [hf] at h; exact ⟨source_none.1 hf, by simpa [eq_comm] using h⟩
  | some r => rw [hf] at h; cases h

/-- A destination operand is the first failure of its checks, or else the address it names. -/
theorem readAddress_eq (s : State) (m : Mode) (k : Nat) :
    readAddress s m k = match firstFailure (destinationChecks s m k) with
      | some r => .error r
      | none => .ok (target s m k) := by
  cases hl : valid s (s.pc + k)
  · simp [readAddress, lit_eq, hl, destinationChecks, literalCheck, firstFailure, bind, Except.bind]
  · cases m with
    | immediate =>
      simp [readAddress, lit_eq, hl, destinationChecks, literalCheck, firstFailure, bind, Except.bind,
        slotAddress]
    | position =>
      cases ha : valid s (literal s k) <;>
        simp [readAddress, lit_eq, hl, destinationChecks, literalCheck, firstFailure, bind, Except.bind,
          target, slotAddress, checkAddress_eq, ha]
    | relative =>
      cases ha : valid s (s.rb + literal s k) <;>
        simp [readAddress, lit_eq, hl, destinationChecks, literalCheck, firstFailure, bind, Except.bind,
          target, slotAddress, checkAddress_eq, ha]

theorem destination_none {s : State} {m : Mode} {k : Nat} :
    firstFailure (destinationChecks s m k) = none ↔ writable s m k = true := by
  cases hl : valid s (s.pc + k)
  · simp [writable, hl, destinationChecks, literalCheck, firstFailure]
  · cases ha : slotAddress s m k with
    | none => simp [writable, hl, destinationChecks, literalCheck, firstFailure, ha]
    | some a => cases hv : valid s a <;>
        simp [writable, hl, destinationChecks, literalCheck, firstFailure, ha, hv]

theorem readAddress_ok {s : State} {m : Mode} {k : Nat} (h : writable s m k = true) :
    readAddress s m k = .ok (target s m k) := by
  rw [readAddress_eq, destination_none.2 h]

theorem readAddress_error {s : State} {m : Mode} {k : Nat} {r : Raise}
    (h : firstFailure (destinationChecks s m k) = some r) : readAddress s m k = .error r := by
  rw [readAddress_eq, h]

theorem readAddress_inv {s : State} {m : Mode} {k : Nat} {d : Nat} (h : readAddress s m k = .ok d) :
    writable s m k = true ∧ d = target s m k := by
  rw [readAddress_eq] at h
  cases hf : firstFailure (destinationChecks s m k) with
  | none => rw [hf] at h; exact ⟨destination_none.1 hf, by simpa [eq_comm] using h⟩
  | some r => rw [hf] at h; cases h

/-- What a readable slot says of the cursor (spec/20_memory.md R53, item 1). -/
theorem readable_lit {s : State} {m : Mode} {k : Nat} (h : readable s m k = true) :
    s.pc + k < s.len := by
  simp only [readable, Bool.and_eq_true] at h
  exact valid_lit.1 h.1

theorem writable_lit {s : State} {m : Mode} {k : Nat} (h : writable s m k = true) :
    s.pc + k < s.len := by
  simp only [writable, Bool.and_eq_true] at h
  exact valid_lit.1 h.1

/-- A resolved write address is a cell that exists (spec/40_decode_resolve_loop.md R118). -/
theorem target_lt {s : State} {m : Mode} {k : Nat} (h : writable s m k = true) :
    target s m k < s.len := by
  simp only [writable, Bool.and_eq_true] at h
  unfold target
  cases ha : slotAddress s m k with
  | none => rw [ha] at h; simp at h
  | some a =>
    rw [ha] at h
    have := valid_iff.1 h.2
    simp only
    omega

/-- An operand is a cell value where every cell is one (spec/40_decode_resolve_loop.md R116). -/
theorem inRange_operand {s : State} (hc : s.mem.fits s.params.width s.len = true) (m : Mode) (k : Nat) :
    inRange s.params.width (operand s m k) = true := by
  unfold operand literal
  split <;> exact Memory.inRange_get hc _

theorem memWrite_target {s : State} {m : Mode} {k : Nat} (h : writable s m k = true) (v : Int) :
    memWrite s (target s m k : Nat) v = .ok { s with mem := s.mem.set (target s m k) v } := by
  have := target_lt h
  have hv : valid s (target s m k : Nat) = true := valid_iff.2 (by omega)
  simp [memWrite, inBounds_eq_valid, hv]

/-! ### The common courses -/

/-- The course of ADD, MUL, LT and EQ when its three slots resolve: the operation's raise, or the one
write and the cursor's advance. -/
theorem storeResult_resolved {f : Int → Int → Checked Int} {m1 m2 m3 : Mode} {s : State}
    (h1 : readable s m1 1 = true) (h2 : readable s m2 2 = true) (h3 : writable s m3 3 = true) :
    storeResult f m1 m2 m3 s = match f (operand s m1 1) (operand s m2 2) with
      | .ok r => .ok { s with mem := s.mem.set (target s m3 3) r, pc := s.pc + 4 }
      | .error r => .error r := by
  unfold storeResult
  rw [readValue_ok h1, readValue_ok h2, readAddress_ok h3]
  simp only [bind, Except.bind]
  cases f (operand s m1 1) (operand s m2 2) with
  | ok r => simp [memWrite_target h3, advancePc]
  | error r => rfl

/-- The first failing slot ends the course. -/
theorem storeResult_error {f : Int → Int → Checked Int} {m1 m2 m3 : Mode} {s : State} {r : Raise}
    (h : firstFailure (sourceChecks s m1 1 ++ sourceChecks s m2 2 ++ destinationChecks s m3 3) = some r) :
    storeResult f m1 m2 m3 s = .error r := by
  unfold storeResult
  rcases firstFailure_append_some.1 h with h | ⟨h, h3⟩
  · rcases firstFailure_append_some.1 h with h1 | ⟨h1, h2⟩
    · rw [readValue_error h1]; rfl
    · rw [readValue_ok (source_none.1 h1), readValue_error h2]; rfl
  · obtain ⟨h1, h2⟩ := firstFailure_append_none.1 h
    rw [readValue_ok (source_none.1 h1), readValue_ok (source_none.1 h2), readAddress_error h3]; rfl

/-- Everything the course can do. -/
theorem storeResult_inv {f : Int → Int → Checked Int} {m1 m2 m3 : Mode} {s t : State}
    (h : storeResult f m1 m2 m3 s = .ok t) :
    readable s m1 1 = true ∧ readable s m2 2 = true ∧ writable s m3 3 = true ∧
    ∃ r, f (operand s m1 1) (operand s m2 2) = .ok r ∧
      t = { s with mem := s.mem.set (target s m3 3) r, pc := s.pc + 4 } := by
  cases hf : firstFailure (sourceChecks s m1 1 ++ sourceChecks s m2 2 ++ destinationChecks s m3 3) with
  | some r => rw [storeResult_error hf] at h; cases h
  | none =>
    obtain ⟨h12, h3⟩ := firstFailure_append_none.1 hf
    obtain ⟨h1, h2⟩ := firstFailure_append_none.1 h12
    refine ⟨source_none.1 h1, source_none.1 h2, destination_none.1 h3, ?_⟩
    rw [storeResult_resolved (source_none.1 h1) (source_none.1 h2) (destination_none.1 h3)] at h
    cases hr : f (operand s m1 1) (operand s m2 2) with
    | ok r => rw [hr] at h; exact ⟨r, rfl, by simpa [eq_comm] using h⟩
    | error r => rw [hr] at h; cases h

/-- The course of JT and JF when both slots resolve. -/
theorem jumpWhen_resolved {p : Int → Bool} {m1 m2 : Mode} {s : State}
    (h1 : readable s m1 1 = true) (h2 : readable s m2 2 = true) :
    jumpWhen p m1 m2 s = if p (operand s m1 1) then jumpTo (operand s m2 2) s
      else .ok { s with pc := s.pc + 3 } := by
  unfold jumpWhen
  rw [readValue_ok h1, readValue_ok h2]
  rfl

theorem jumpWhen_error {p : Int → Bool} {m1 m2 : Mode} {s : State} {r : Raise}
    (h : firstFailure (sourceChecks s m1 1 ++ sourceChecks s m2 2) = some r) :
    jumpWhen p m1 m2 s = .error r := by
  unfold jumpWhen
  rcases firstFailure_append_some.1 h with h1 | ⟨h1, h2⟩
  · rw [readValue_error h1]; rfl
  · rw [readValue_ok (source_none.1 h1), readValue_error h2]; rfl

/-- Everything the course of a jump can do. -/
theorem jumpWhen_inv {p : Int → Bool} {m1 m2 : Mode} {s t : State} (h : jumpWhen p m1 m2 s = .ok t) :
    readable s m1 1 = true ∧ readable s m2 2 = true ∧
    ((p (operand s m1 1) = true ∧ 0 ≤ operand s m2 2 ∧ t = { s with pc := (operand s m2 2).toNat }) ∨
      (p (operand s m1 1) = false ∧ t = { s with pc := s.pc + 3 })) := by
  cases hf : firstFailure (sourceChecks s m1 1 ++ sourceChecks s m2 2) with
  | some r => rw [jumpWhen_error hf] at h; cases h
  | none =>
    obtain ⟨h1, h2⟩ := firstFailure_append_none.1 hf
    refine ⟨source_none.1 h1, source_none.1 h2, ?_⟩
    rw [jumpWhen_resolved (source_none.1 h1) (source_none.1 h2)] at h
    cases hp : p (operand s m1 1) with
    | false => rw [hp] at h; exact .inr ⟨rfl, by simpa [eq_comm] using h⟩
    | true =>
      rw [hp, if_pos rfl, jumpTo] at h
      split at h
      · cases h
      · exact .inl ⟨rfl, by omega, by simpa [eq_comm] using h⟩

theorem chk_ok {p : Params} {v : Int} (h : inRange p.width v = true) : chk p v = .ok v := by
  simp [chk, h]

theorem chk_error {p : Params} {v : Int} (h : inRange p.width v = false) :
    chk p v = .error ⟨.overflow, v⟩ := by
  simp [chk, h]

theorem chk_inv {p : Params} {v r : Int} (h : chk p v = .ok r) : inRange p.width v = true ∧ r = v := by
  unfold chk at h
  split at h
  · exact ⟨‹_›, by simpa [eq_comm] using h⟩
  · cases h

/-- The course of ARB when its slot resolves. -/
theorem adjustBase_resolved {m1 : Mode} {s : State} (h1 : readable s m1 1 = true) :
    adjustBase m1 s = match chk s.params (s.rb + operand s m1 1) with
      | .ok r => .ok { s with rb := r, pc := s.pc + 2 }
      | .error r => .error r := by
  unfold adjustBase
  rw [readValue_ok h1]
  simp only [bind, Except.bind]
  cases chk s.params (s.rb + operand s m1 1) <;> rfl

theorem adjustBase_error {m1 : Mode} {s : State} {r : Raise}
    (h : firstFailure (sourceChecks s m1 1) = some r) : adjustBase m1 s = .error r := by
  unfold adjustBase
  rw [readValue_error h]; rfl

/-- Everything the course of ARB can do. -/
theorem adjustBase_inv {m1 : Mode} {s t : State} (h : adjustBase m1 s = .ok t) :
    readable s m1 1 = true ∧ inRange s.params.width (s.rb + operand s m1 1) = true ∧
    t = { s with rb := s.rb + operand s m1 1, pc := s.pc + 2 } := by
  cases hf : firstFailure (sourceChecks s m1 1) with
  | some r => rw [adjustBase_error hf] at h; cases h
  | none =>
    have h1 := source_none.1 hf
    rw [adjustBase_resolved h1] at h
    cases hr : chk s.params (s.rb + operand s m1 1) with
    | error r => rw [hr] at h; cases h
    | ok r =>
      obtain ⟨hi, rfl⟩ := chk_inv hr
      rw [hr] at h
      exact ⟨h1, hi, by simpa [eq_comm] using h⟩

/-- The course of IN's first half. -/
theorem suspendForInput_eq (m1 : Mode) (s : State) :
    suspendForInput m1 s = match firstFailure (destinationChecks s m1 1) with
      | some r => .error r
      | none => .ok { s with ioAddr := target s m1 1, status := .suspendedForInput } := by
  unfold suspendForInput
  rw [readAddress_eq]
  cases firstFailure (destinationChecks s m1 1) <;> rfl

/-- The course of OUT's first half. -/
theorem suspendForOutput_eq (m1 : Mode) (s : State) :
    suspendForOutput m1 s = match firstFailure (sourceChecks s m1 1) with
      | some r => .error r
      | none => .ok { s with ioVal := operand s m1 1, status := .suspendedForOutput } := by
  unfold suspendForOutput
  rw [readValue_eq]
  cases firstFailure (sourceChecks s m1 1) <;> rfl

/-- A settled computation is one of two next states. -/
theorem settle_inv {s t : State} {c : Checked State} (h : settle s c = .next t) :
    c = .ok t ∨ ∃ r, c = .error r ∧ t = takeFault r s := by
  cases c with
  | ok u => exact .inl (by simpa [settle] using h)
  | error r => exact .inr ⟨r, rfl, by simpa [settle, eq_comm] using h⟩

end Sys2Proof.Machine
end

