-- ==== Sys2Proof/Laws/Exec.lean ====
section
/-! SUPPORT. What each meaning answers, once: the fault of the first failing check, or the effect. -/

namespace Sys2Proof.Machine

/-- What a computation that ends in the first failing check, or else in a state, settles to. -/
theorem settle_eq {s t : State} {l : List Check} {c : Checked State}
    (he : ∀ r, firstFailure l = some r → c = .error r) (ho : firstFailure l = none → c = .ok t) :
    settle s c = .next (match firstFailure l with
      | some r => faultedAt s r
      | none => t) := by
  cases hf : firstFailure l with
  | none => rw [ho hf]; rfl
  | some r => rw [he r hf]; rfl

/-- A storing instruction whose operation has a range check. -/
theorem storeChecked_eq (g : Int → Int → Int) (m1 m2 m3 : Mode) (s : State) :
    settle s (storeResult (fun a b => chk s.params (g a b)) m1 m2 m3 s) =
      .next (match firstFailure (sourceChecks s m1 1 ++ sourceChecks s m2 2 ++
          destinationChecks s m3 3 ++ [overflowCheck s (g (operand s m1 1) (operand s m2 2))]) with
        | some r => faultedAt s r
        | none => { s with mem := s.mem.set (target s m3 3) (g (operand s m1 1) (operand s m2 2)),
                           pc := s.pc + 4 }) := by
  refine settle_eq (fun r h => ?_) (fun h => ?_)
  · rcases firstFailure_append_some.1 h with h | ⟨h, ho⟩
    · exact storeResult_error h
    · obtain ⟨h12, h3⟩ := firstFailure_append_none.1 h
      obtain ⟨h1, h2⟩ := firstFailure_append_none.1 h12
      obtain ⟨hr, rfl⟩ := firstFailure_overflow_some.1 ho
      rw [storeResult_resolved (source_none.1 h1) (source_none.1 h2) (destination_none.1 h3),
        chk_error hr]
  · obtain ⟨h, ho⟩ := firstFailure_append_none.1 h
    obtain ⟨h12, h3⟩ := firstFailure_append_none.1 h
    obtain ⟨h1, h2⟩ := firstFailure_append_none.1 h12
    rw [storeResult_resolved (source_none.1 h1) (source_none.1 h2) (destination_none.1 h3),
      chk_ok (firstFailure_overflow_none.1 ho)]

/-- A storing instruction whose operation cannot raise. -/
theorem storeTruth_eq (g : Int → Int → Int) (m1 m2 m3 : Mode) (s : State) :
    settle s (storeResult (fun a b => .ok (g a b)) m1 m2 m3 s) =
      .next (match firstFailure (sourceChecks s m1 1 ++ sourceChecks s m2 2 ++
          destinationChecks s m3 3) with
        | some r => faultedAt s r
        | none => { s with mem := s.mem.set (target s m3 3) (g (operand s m1 1) (operand s m2 2)),
                           pc := s.pc + 4 }) := by
  refine settle_eq (fun r h => storeResult_error h) (fun h => ?_)
  obtain ⟨h12, h3⟩ := firstFailure_append_none.1 h
  obtain ⟨h1, h2⟩ := firstFailure_append_none.1 h12
  rw [storeResult_resolved (source_none.1 h1) (source_none.1 h2) (destination_none.1 h3)]

/-- A jump: its two slots, then the sign of the target when it is taken. -/
theorem jump_eq (p : Int → Bool) (m1 m2 : Mode) (s : State) :
    settle s (jumpWhen p m1 m2 s) =
      .next (match firstFailure (sourceChecks s m1 1 ++ sourceChecks s m2 2 ++
          [(p (operand s m1 1) && decide (operand s m2 2 < 0), .outOfBounds, operand s m2 2)]) with
        | some r => faultedAt s r
        | none => { s with pc := if p (operand s m1 1) = true then (operand s m2 2).toNat
                                 else s.pc + 3 }) := by
  refine settle_eq (fun r h => ?_) (fun h => ?_)
  · rcases firstFailure_append_some.1 h with h | ⟨h, ht⟩
    · exact jumpWhen_error h
    · obtain ⟨h1, h2⟩ := firstFailure_append_none.1 h
      rw [jumpWhen_resolved (source_none.1 h1) (source_none.1 h2)]
      by_cases hp : p (operand s m1 1) = true <;> by_cases hn : operand s m2 2 < 0 <;>
        simp_all [firstFailure, jumpTo]
  · obtain ⟨h, ht⟩ := firstFailure_append_none.1 h
    obtain ⟨h1, h2⟩ := firstFailure_append_none.1 h
    rw [jumpWhen_resolved (source_none.1 h1) (source_none.1 h2)]
    by_cases hp : p (operand s m1 1) = true
    · have hn : ¬ operand s m2 2 < 0 := by
        intro hn; simp [firstFailure, hp, hn] at ht
      simp [hp, jumpTo, hn]
    · simp [hp]

theorem execIn_eq (m1 : Mode) (s : State) :
    execIn m1 s = .next (match firstFailure (destinationChecks s m1 1) with
      | some r => faultedAt s r
      | none => { s with ioAddr := target s m1 1, status := .suspendedForInput }) :=
  settle_eq (fun r h => by rw [suspendForInput_eq, h]) (fun h => by rw [suspendForInput_eq, h])

theorem execOut_eq (m1 : Mode) (s : State) :
    execOut m1 s = .next (match firstFailure (sourceChecks s m1 1) with
      | some r => faultedAt s r
      | none => { s with ioVal := operand s m1 1, status := .suspendedForOutput }) :=
  settle_eq (fun r h => by rw [suspendForOutput_eq, h]) (fun h => by rw [suspendForOutput_eq, h])

theorem execArb_eq (m1 : Mode) (s : State) :
    execArb m1 s = .next (match firstFailure (sourceChecks s m1 1 ++
        [overflowCheck s (s.rb + operand s m1 1)]) with
      | some r => faultedAt s r
      | none => { s with rb := s.rb + operand s m1 1, pc := s.pc + 2 }) := by
  refine settle_eq (fun r h => ?_) (fun h => ?_)
  · rcases firstFailure_append_some.1 h with h1 | ⟨h1, ho⟩
    · exact adjustBase_error h1
    · obtain ⟨hr, rfl⟩ := firstFailure_overflow_some.1 ho
      rw [adjustBase_resolved (source_none.1 h1), chk_error hr]
  · obtain ⟨h, ho⟩ := firstFailure_append_none.1 h
    rw [adjustBase_resolved (source_none.1 h), chk_ok (firstFailure_overflow_none.1 ho)]

/-- Everything an instruction can do: the fault of the first failing check of
spec/60_exceptions.md R217, or its effect. -/
theorem exec_eq (i : Instr) (s : State) :
    exec i s = .next (match firstFailure (checksOf i s) with
      | some r => faultedAt s r
      | none => effectOf i s) := by
  cases i with
  | add m1 m2 m3 => exact storeChecked_eq (· + ·) m1 m2 m3 s
  | mul m1 m2 m3 => exact storeChecked_eq (· * ·) m1 m2 m3 s
  | inp m1 => exact execIn_eq m1 s
  | out m1 => exact execOut_eq m1 s
  | jt m1 m2 =>
    have h := jump_eq (fun c => decide (c ≠ 0)) m1 m2 s
    simp only [decide_eq_true_eq, ← Bool.decide_and] at h
    exact h
  | jf m1 m2 =>
    have h := jump_eq (fun c => decide (c = 0)) m1 m2 s
    simp only [decide_eq_true_eq, ← Bool.decide_and] at h
    exact h
  | lt m1 m2 m3 =>
    have h := storeTruth_eq (fun a b => truth (decide (a < b))) m1 m2 m3 s
    have e : truth (decide (operand s m1 1 < operand s m2 2)) =
        if operand s m1 1 < operand s m2 2 then 1 else 0 := by split <;> simp [truth, *]
    simp only [e] at h
    exact h
  | eq m1 m2 m3 =>
    have h := storeTruth_eq (fun a b => truth (decide (a = b))) m1 m2 m3 s
    have e : truth (decide (operand s m1 1 = operand s m2 2)) =
        if operand s m1 1 = operand s m2 2 then 1 else 0 := by split <;> simp [truth, *]
    simp only [e] at h
    exact h
  | arb m1 => exact execArb_eq m1 s
  | halt => rfl

/-- The two cases of a next state, for provers who start from one. -/
theorem exec_inv {i : Instr} {s t : State} (h : exec i s = .next t) :
    (∃ r, firstFailure (checksOf i s) = some r ∧ t = faultedAt s r) ∨
      (firstFailure (checksOf i s) = none ∧ t = effectOf i s) := by
  rw [exec_eq] at h
  cases hf : firstFailure (checksOf i s) with
  | some r => rw [hf] at h; exact .inl ⟨r, rfl, by simpa [eq_comm] using h⟩
  | none => rw [hf] at h; exact .inr ⟨rfl, by simpa [eq_comm] using h⟩

end Sys2Proof.Machine
end

