-- ==== Sys2Proof/Laws/Step.lean ====
section
/-! SUPPORT. What a step can do, once: the cases every whole-machine claim starts from. -/

namespace Sys2Proof.Machine

/-- The engine's step when it is not Running: nothing (spec/40_decode_resolve_loop.md R123). -/
theorem engineStep_idle {s : State} (h : s.status ≠ .running) : engineStep s = .next s := by
  unfold engineStep
  cases hs : s.status <;> simp_all

theorem engineStep_running {s : State} (h : s.status = .running) :
    engineStep s = runStep (begin s) := by
  simp [engineStep, h]

/-- The four things a Running engine's step can do (spec/40_decode_resolve_loop.md R122). -/
theorem runStep_inv {s t : State} (h : runStep s = .next t) :
    (s.len ≤ s.pc ∧ t = enterHalted s) ∨
    (s.pc < s.len ∧ ∃ r, decode s.params.reserved (s.mem.get s.pc) = .error r ∧
      t = faultedAt s ⟨causeOf r, s.mem.get s.pc⟩) ∨
    (s.pc < s.len ∧ ∃ i, decode s.params.reserved (s.mem.get s.pc) = .ok i ∧
      ((∃ r, firstFailure (checksOf i s) = some r ∧ t = faultedAt s r) ∨
        (firstFailure (checksOf i s) = none ∧ t = effectOf i s))) := by
  unfold runStep decodeAt at h
  split at h
  · exact .inl ⟨‹_›, by simpa [eq_comm] using h⟩
  · refine .inr ?_
    have hl : s.pc < s.len := by omega
    cases hd : decode s.params.reserved (s.mem.get s.pc) with
    | error r => rw [hd] at h; exact .inl ⟨hl, r, rfl, by simpa [takeFault_eq_faultedAt, eq_comm] using h⟩
    | ok i => rw [hd] at h; exact .inr ⟨hl, i, rfl, exec_inv h⟩

/-- Every step of the engine answers a next state. -/
theorem runStep_next (s : State) : ∃ t, runStep s = .next t := by
  unfold runStep
  split
  · exact ⟨_, rfl⟩
  · split
    · exact ⟨_, exec_eq _ _⟩
    · exact ⟨_, rfl⟩

theorem engineStep_next (s : State) : ∃ t, engineStep s = .next t := by
  by_cases h : s.status = .running
  · rw [engineStep_running h]; exact runStep_next _
  · exact ⟨s, engineStep_idle h⟩

/-- The completion of IN, in full (spec/42_input_output.md R154). -/
theorem storeInput_eq (x : Int) (s : State) :
    storeInput x s = if s.ioAddr < s.len
      then .ok { s with mem := s.mem.set s.ioAddr x, pc := s.pc + 2, status := .running }
      else .error ⟨.outOfBounds, s.ioAddr⟩ := by
  unfold storeInput memWrite
  rw [inBounds_eq_valid]
  by_cases h : s.ioAddr < s.len
  · have hv : valid s (s.ioAddr : Int) = true := valid_iff.2 (by omega)
    simp [hv, h, bind, Except.bind, advancePc]
  · have hv : valid s (s.ioAddr : Int) = false := by
      rw [Bool.eq_false_iff]; exact fun hc => h (by have := valid_iff.1 hc; omega)
    simp [hv, h, bind, Except.bind]

/-- What a host's move that is accepted does (spec/42_input_output.md R162). -/
theorem hostMove_inv {m : HostMove} {s t : State} (h : hostMove m s = .next t) :
    (∃ p, m = .reset p ∧ p.length ≤ s.params.memMax ∧ p.all (inRange s.params.width) = true ∧
      t = resetWith p s) ∨
    (∃ n : Int, m = .grow n ∧ s.status = .running ∧ s.started = false ∧
      ((n < s.len ∧ t = faultedAt s ⟨.growthBelowSize, n⟩) ∨
        ((s.len : Int) ≤ n ∧ n ≤ s.params.memMax ∧ t = { s with len := n.toNat }))) ∨
    (m = .letStep ∧ engineStep s = .next t) ∨
    (∃ x, m = .value x ∧ s.status = .suspendedForInput ∧ inRange s.params.width x = true ∧
      ((s.ioAddr < s.len ∧
          t = { s with mem := s.mem.set s.ioAddr x, pc := s.pc + 2, status := .running }) ∨
        (s.len ≤ s.ioAddr ∧ t = faultedAt s ⟨.outOfBounds, s.ioAddr⟩))) ∨
    (m = .exhausted ∧ s.status = .suspendedForInput ∧
      t = faultedAt s ⟨.inputExhausted, s.ioAddr⟩) ∨
    (m = .ack ∧ s.status = .suspendedForOutput ∧ t = outputTaken s) := by
  cases m with
  | reset p =>
    simp only [hostMove, bootImage] at h
    split at h
    · cases h
    · split at h
      · refine .inl ⟨p, rfl, by omega, ‹_›, ?_⟩
        simpa [eq_comm] using h
      · cases h
  | grow n =>
    simp only [hostMove, requestGrowth, growTo] at h
    split at h
    · next hb =>
      have hb' : s.status = .running ∧ s.started = false := by simpa [beforeRun] using hb
      refine .inr (.inl ⟨n, rfl, hb'.1, hb'.2, ?_⟩)
      split at h
      · exact .inl ⟨‹_›, by simpa [takeFault_eq_faultedAt, eq_comm] using h⟩
      · split at h
        · cases h
        · exact .inr ⟨by omega, by omega, by simpa [eq_comm] using h⟩
    · cases h
  | letStep => exact .inr (.inr (.inl ⟨rfl, h⟩))
  | value x =>
    refine .inr (.inr (.inr (.inl ⟨x, rfl, ?_⟩)))
    simp only [hostMove, replyValue] at h
    split at h
    · split at h
      · refine ⟨‹_›, ‹_›, ?_⟩
        rw [storeInput_eq] at h
        split at h
        · exact .inl ⟨‹_›, by simpa [settle, eq_comm] using h⟩
        · exact .inr ⟨by omega, by simpa [settle, takeFault_eq_faultedAt, eq_comm] using h⟩
      · cases h
    · cases h
  | exhausted =>
    refine .inr (.inr (.inr (.inr (.inl ⟨rfl, ?_⟩))))
    simp only [hostMove, replyExhausted] at h
    split at h
    · exact ⟨‹_›, by simpa [inputExhausted, takeFault_eq_faultedAt, eq_comm] using h⟩
    · cases h
  | ack =>
    refine .inr (.inr (.inr (.inr (.inr ⟨rfl, ?_⟩))))
    simp only [hostMove, replyAck] at h
    split at h
    · exact ⟨‹_›, by simpa [eq_comm] using h⟩
    · cases h

/-- A step is the engine's, or the host's oldest move when it is due (log entry 1). -/
theorem step_inv {s t : State} (h : step s = .next t) :
    (hostIdle s = true ∧ engineStep s = .next t) ∨
    (∃ m rest, s.inbox = m :: rest ∧ moveIsDue s m = true ∧
      hostMove m { s with inbox := rest } = .next t) := by
  unfold step turn at h
  unfold hostIdle
  cases hi : s.inbox with
  | nil => rw [hi] at h; exact .inl ⟨rfl, h⟩
  | cons m rest =>
    rw [hi] at h
    cases hd : moveIsDue s m with
    | false => exact .inl ⟨by simp [hd], by simpa [hd] using h⟩
    | true => exact .inr ⟨m, rest, rfl, hd, by simpa [hd] using h⟩

/-- When no move of the host is due, a step is the engine's. -/
theorem step_idle {s : State} (h : hostIdle s = true) : step s = engineStep s := by
  unfold hostIdle at h
  unfold step turn
  cases hi : s.inbox with
  | nil => rfl
  | cons m rest => rw [hi] at h; simp only [Bool.not_eq_true'] at h; simp [h]

/-- When the host's oldest move is due, a step is that move. -/
theorem step_move {s : State} {m : HostMove} {rest : List HostMove} (hi : s.inbox = m :: rest)
    (hd : moveIsDue s m = true) : step s = hostMove m { s with inbox := rest } := by
  unfold step turn
  rw [hi]
  simp [hd]

/-- A step of a Running engine with no move of the host due. -/
theorem step_running {s : State} (hr : s.status = .running) (hi : hostIdle s = true) :
    step s = runStep (begin s) := by
  rw [step_idle hi, engineStep_running hr]

/-- What a Running engine's step leaves: the implicit halt, a fault, or the effect of the instruction at
the cursor (spec/40_decode_resolve_loop.md R122). -/
theorem runStep_begin_inv {u t : State} (h : runStep (begin u) = .next t) :
    (u.len ≤ u.pc ∧ t = enterHalted (begin u)) ∨ (∃ r, t = faultedAt (begin u) r) ∨
    (u.pc < u.len ∧ ∃ i, decode u.params.reserved (u.mem.get u.pc) = .ok i ∧
      firstFailure (checksOf i (begin u)) = none ∧ t = effectOf i (begin u)) := by
  rcases runStep_inv h with h | ⟨_, r, _, h⟩ | ⟨hl, i, hd, ⟨r, _, h⟩ | ⟨hf, h⟩⟩
  · exact .inl h
  · exact .inr (.inl ⟨_, h⟩)
  · exact .inr (.inl ⟨_, h⟩)
  · exact .inr (.inr ⟨hl, i, hd, hf, h⟩)

/-- The three kinds of transition: an engine that is not Running stays (a step by hand is spent), a Running
engine makes its step (of its own accord or by hand), or the host makes another move. -/
inductive Transition (s t : State) : Prop where
  | idle (h : s.status ≠ .running)
      (e : t = s ∨ ∃ m rest, s.inbox = m :: rest ∧ t = { s with inbox := rest })
  | run (hr : s.status = .running) (u : State)
      (hu : u = s ∨ ∃ rest, s.inbox = .letStep :: rest ∧ u = { s with inbox := rest })
      (h : runStep (begin u) = .next t)
  | host (m : HostMove) (rest : List HostMove) (hi : s.inbox = m :: rest) (hm : m ≠ .letStep)
      (h : hostMove m { s with inbox := rest } = .next t)

/-- Every step is one of them. -/
theorem step_transition {s t : State} (h : step s = .next t) : Transition s t := by
  rcases step_inv h with ⟨_, h⟩ | ⟨m, rest, hi, _, h⟩
  · by_cases hr : s.status = .running
    · rw [engineStep_running hr] at h; exact .run hr s (.inl rfl) h
    · rw [engineStep_idle hr] at h; cases h; exact .idle hr (.inl rfl)
  · by_cases hm : m = .letStep
    · subst hm
      simp only [hostMove] at h
      by_cases hr : s.status = .running
      · rw [engineStep_running (s := { s with inbox := rest }) hr] at h
        exact .run hr _ (.inr ⟨rest, hi, rfl⟩) h
      · rw [engineStep_idle (s := { s with inbox := rest }) hr] at h
        cases h
        exact .idle hr (.inr ⟨_, rest, hi, rfl⟩)
    · exact .host m rest hi hm h

end Sys2Proof.Machine
end

