-- ==== Sys2Proof/Laws/Adapters.lean ====
section
/-! SUPPORT. What the drivers of Machine/Adapters.lean do, once: peeling one transition off, the induction
over the turns, and what each end says of the engine. -/

namespace Sys2Proof.Machine

/-- A transition that goes on went on from a next state. -/
theorem carry_inv {α β : Type} {o : Host.Outcome α Fault Refusal} {f : α → β} {b : β}
    (h : carry o f = .next b) : ∃ a, o = .next a ∧ b = f a := by
  cases o with
  | next a => exact ⟨a, rfl, by simpa [carry, eq_comm] using h⟩
  | fault r => simp [carry] at h
  | refused r => simp [carry] at h

@[simp] theorem carry_next {α β : Type} (a : α) (f : α → β) :
    carry (.next a : Host.Outcome α Fault Refusal) f = .next (f a) := rfl

@[simp] theorem repeatStep_zero {α : Type} (g : α → Host.Outcome α Fault Refusal) (a : α) :
    repeatStep g 0 a = .next a := rfl

/-- Where one transition goes on, the repetition goes on from there. -/
theorem repeatStep_succ {α : Type} {g : α → Host.Outcome α Fault Refusal} {a b : α} (n : Nat)
    (h : g a = .next b) : repeatStep g (n + 1) a = repeatStep g n b := by
  simp [repeatStep, h]

/-- A repetition that goes on made its first transition. -/
theorem repeatStep_succ_inv {α : Type} {g : α → Host.Outcome α Fault Refusal} {a c : α} {n : Nat}
    (h : repeatStep g (n + 1) a = .next c) : ∃ b, g a = .next b ∧ repeatStep g n b = .next c := by
  cases hg : g a with
  | next b => exact ⟨b, rfl, by rwa [repeatStep_succ n hg] at h⟩
  | fault r => simp [repeatStep, hg] at h
  | refused r => simp [repeatStep, hg] at h

/-- The induction over the turns, once: a relation that is reflexive, and that each transition extends at the
front, holds from start to end. -/
theorem repeatStep_induction {α : Type} {g : α → Host.Outcome α Fault Refusal} {R : α → α → Prop}
    (hrefl : ∀ a, R a a) (hstep : ∀ a b c, g a = .next b → R b c → R a c) :
    ∀ {n : Nat} {a c : α}, repeatStep g n a = .next c → R a c := by
  intro n
  induction n with
  | zero =>
    intro a c h
    cases h
    exact hrefl a
  | succ n ih =>
    intro a c h
    obtain ⟨b, hb, hc⟩ := repeatStep_succ_inv h
    exact hstep a b c hb (ih hc)

/-- What a turn of `next_output`'s loop takes from a queue, it takes from the head. -/
theorem awaitStep_supply {r e : Supplied (List Int)} (h : awaitStep takeQueue r = .next e) :
    ∃ used, r.supply = used ++ e.supply := by
  obtain ⟨s, q⟩ := r
  unfold awaitStep at h
  cases hs : s.status <;> simp only [hs] at h
  case running => obtain ⟨t, _, rfl⟩ := carry_inv h; exact ⟨[], rfl⟩
  case suspendedForInput =>
    cases q with
    | nil => obtain ⟨t, _, rfl⟩ := carry_inv h; exact ⟨[], rfl⟩
    | cons x q => obtain ⟨t, _, rfl⟩ := carry_inv h; exact ⟨[x], rfl⟩
  all_goals cases h; exact ⟨[], rfl⟩

/-- An answer of `next_output` tells how the engine was left. -/
theorem nextAnswer_inv (s : State) :
    (s.status = .suspendedForOutput ∧ nextAnswer s = .some s.ioVal) ∨
    (s.status = .halted ∧ nextAnswer s = .none) ∨
    (s.status = .faulted ∧ nextAnswer s = .failed s.fcause s.fpc s.faddr) ∨
    ((s.status = .running ∨ s.status = .suspendedForInput) ∧ nextAnswer s = .unfinished) := by
  unfold nextAnswer
  cases hs : s.status <;> simp

/-- A call returned exactly when the engine is Halted (spec/42_input_output.md R163, R166). -/
theorem runEnd_returned {α : Type} {s : State} {kept k : α} :
    runEnd s kept = .returned k ↔ s.status = .halted ∧ k = kept := by
  unfold runEnd
  cases hs : s.status <;> simp [eq_comm]

/-- A call failed exactly when the engine is Faulted, with its fault record. -/
theorem runEnd_failed {α : Type} {s : State} {kept k : α} {c : Cause} {p : Nat} {a : Int} :
    runEnd s kept = .failed c p a k ↔
      s.status = .faulted ∧ c = s.fcause ∧ p = s.fpc ∧ a = s.faddr ∧ k = kept := by
  unfold runEnd
  cases hs : s.status <;> simp [eq_comm]

@[simp] theorem Ring.keep_signal (r : Ring) (m : Member) (e : State) : (r.keep m e).signal = r.signal := rfl
@[simp] theorem Ring.keep_next (r : Ring) (m : Member) (e : State) : (r.keep m e).next = r.next := rfl
@[simp] theorem Ring.keep_members (r : Ring) (m : Member) (e : State) :
    (r.keep m e).members = r.members.set r.next { m with engine := e, first := false } := rfl

end Sys2Proof.Machine
end

