-- ==== Sys2Proof/Laws/PerInstr.lean ====
section
/-! SUPPORT. Statements made for every instruction, one lemma per constructor.

`EncodeShape`: the word of an instruction ends in its operation code, has no digit above its last mode
slot, and each mode slot holds the digit of its mode (spec/30_encoding.md R83, R88). -/

namespace Sys2Proof.Laws.EncodeShape

open Sys2Proof Sys2Proof.Machine

/-- The shape of an instruction's word. -/
def Statement (i : Instr) : Prop :=
  encodeNat i % 100 = i.opcode ∧ encodeNat i < 10 ^ (i.modes.length + 2) ∧
  operandCount i.opcode = some i.modes.length ∧
  ∀ k m, i.modes[k]? = some m → digit (encodeNat i) (k + 2) = modeDigit m

theorem add (m1 m2 m3 : Mode) : Statement (.add m1 m2 m3) := by
  refine ⟨?_, ?_, rfl, fun k m h => ?_⟩
  · cases m1 <;> cases m2 <;> cases m3 <;> rfl
  · cases m1 <;> cases m2 <;> cases m3 <;> decide
  · match k, h with
    | 0, h => cases h; cases m1 <;> cases m2 <;> cases m3 <;> rfl
    | 1, h => cases h; cases m1 <;> cases m2 <;> cases m3 <;> rfl
    | 2, h => cases h; cases m1 <;> cases m2 <;> cases m3 <;> rfl

theorem mul (m1 m2 m3 : Mode) : Statement (.mul m1 m2 m3) := by
  refine ⟨?_, ?_, rfl, fun k m h => ?_⟩
  · cases m1 <;> cases m2 <;> cases m3 <;> rfl
  · cases m1 <;> cases m2 <;> cases m3 <;> decide
  · match k, h with
    | 0, h => cases h; cases m1 <;> cases m2 <;> cases m3 <;> rfl
    | 1, h => cases h; cases m1 <;> cases m2 <;> cases m3 <;> rfl
    | 2, h => cases h; cases m1 <;> cases m2 <;> cases m3 <;> rfl

theorem inp (m1 : Mode) : Statement (.inp m1) := by
  refine ⟨?_, ?_, rfl, fun k m h => ?_⟩
  · cases m1 <;> rfl
  · cases m1 <;> decide
  · match k, h with
    | 0, h => cases h; cases m1 <;> rfl

theorem out (m1 : Mode) : Statement (.out m1) := by
  refine ⟨?_, ?_, rfl, fun k m h => ?_⟩
  · cases m1 <;> rfl
  · cases m1 <;> decide
  · match k, h with
    | 0, h => cases h; cases m1 <;> rfl

theorem jt (m1 m2 : Mode) : Statement (.jt m1 m2) := by
  refine ⟨?_, ?_, rfl, fun k m h => ?_⟩
  · cases m1 <;> cases m2 <;> rfl
  · cases m1 <;> cases m2 <;> decide
  · match k, h with
    | 0, h => cases h; cases m1 <;> cases m2 <;> rfl
    | 1, h => cases h; cases m1 <;> cases m2 <;> rfl

theorem jf (m1 m2 : Mode) : Statement (.jf m1 m2) := by
  refine ⟨?_, ?_, rfl, fun k m h => ?_⟩
  · cases m1 <;> cases m2 <;> rfl
  · cases m1 <;> cases m2 <;> decide
  · match k, h with
    | 0, h => cases h; cases m1 <;> cases m2 <;> rfl
    | 1, h => cases h; cases m1 <;> cases m2 <;> rfl

theorem lt (m1 m2 m3 : Mode) : Statement (.lt m1 m2 m3) := by
  refine ⟨?_, ?_, rfl, fun k m h => ?_⟩
  · cases m1 <;> cases m2 <;> cases m3 <;> rfl
  · cases m1 <;> cases m2 <;> cases m3 <;> decide
  · match k, h with
    | 0, h => cases h; cases m1 <;> cases m2 <;> cases m3 <;> rfl
    | 1, h => cases h; cases m1 <;> cases m2 <;> cases m3 <;> rfl
    | 2, h => cases h; cases m1 <;> cases m2 <;> cases m3 <;> rfl

theorem eq (m1 m2 m3 : Mode) : Statement (.eq m1 m2 m3) := by
  refine ⟨?_, ?_, rfl, fun k m h => ?_⟩
  · cases m1 <;> cases m2 <;> cases m3 <;> rfl
  · cases m1 <;> cases m2 <;> cases m3 <;> decide
  · match k, h with
    | 0, h => cases h; cases m1 <;> cases m2 <;> cases m3 <;> rfl
    | 1, h => cases h; cases m1 <;> cases m2 <;> cases m3 <;> rfl
    | 2, h => cases h; cases m1 <;> cases m2 <;> cases m3 <;> rfl

theorem arb (m1 : Mode) : Statement (.arb m1) := by
  refine ⟨?_, ?_, rfl, fun k m h => ?_⟩
  · cases m1 <;> rfl
  · cases m1 <;> decide
  · match k, h with
    | 0, h => cases h; cases m1 <;> rfl

theorem halt : Statement .halt := by
  refine ⟨rfl, ?_, rfl, fun k m h => ?_⟩
  · decide
  · cases h

end Sys2Proof.Laws.EncodeShape
end

