-- ==== Sys2Proof/Laws/Decode.lean ====
section
/-! SUPPORT. What each part of the decoder accepts, once. -/

namespace Sys2Proof

theorem modeDigit_lt (m : Mode) : modeDigit m < 3 := by cases m <;> decide

theorem modeOf_ok {d : Nat} {m : Mode} : modeOf d = .ok m ↔ d = modeDigit m := by
  match d with
  | 0 => cases m <;> simp [modeOf, modeDigit]
  | 1 => cases m <;> simp [modeOf, modeDigit]
  | 2 => cases m <;> simp [modeOf, modeDigit]
  | n + 3 => cases m <;> simp [modeOf, modeDigit]

/-- A used mode digit is a mode, or above 2 and illegal (spec/30_encoding.md R85, R91). -/
theorem modeOf_cases (d : Nat) :
    (∃ m, d = modeDigit m ∧ modeOf d = .ok m) ∨ (2 < d ∧ modeOf d = .error .illegalMode) := by
  match d with
  | 0 => exact .inl ⟨.position, rfl, rfl⟩
  | 1 => exact .inl ⟨.immediate, rfl, rfl⟩
  | 2 => exact .inl ⟨.relative, rfl, rfl⟩
  | n + 3 => exact .inr ⟨by omega, rfl⟩

theorem checkReserved_ok {rd : ReservedDigits} {n w : Nat} {i j : Instr} :
    checkReserved rd n w i = .ok j ↔ i = j ∧ (rd = .fault → w / 10 ^ (n + 2) = 0) := by
  cases rd with
  | ignore => simp [checkReserved]
  | fault =>
    by_cases h : w / 10 ^ (n + 2) = 0
    · simp only [checkReserved, h, if_true, Except.ok.injEq, implies_true, and_true]
    · simp only [checkReserved, if_neg h, reduceCtorEq, false_iff]
      exact fun ⟨_, hz⟩ => h (hz trivial)

theorem decode1_ok {rd : ReservedDigits} {w : Nat} {mk : Mode → Instr} {i : Instr} :
    decode1 rd w mk = .ok i ↔ ∃ m1, digit w 2 = modeDigit m1 ∧ i = mk m1 ∧
      (rd = .fault → w / 10 ^ 3 = 0) := by
  rcases modeOf_cases (digit w 2) with ⟨m, hd, hm⟩ | ⟨hd, hm⟩
  · simp only [decode1, hm, bind, Except.bind, checkReserved_ok]
    constructor
    · rintro ⟨rfl, h⟩; exact ⟨m, hd, rfl, h⟩
    · rintro ⟨m', h', rfl, h⟩
      have : m = m' := by cases m <;> cases m' <;> simp_all [modeDigit]
      exact ⟨by rw [this], h⟩
  · simp only [decode1, hm, bind, Except.bind, reduceCtorEq, false_iff]
    rintro ⟨m', h', -⟩
    have := modeDigit_lt m'
    omega

theorem decode2_ok {rd : ReservedDigits} {w : Nat} {mk : Mode → Mode → Instr} {i : Instr} :
    decode2 rd w mk = .ok i ↔ ∃ m1 m2, digit w 2 = modeDigit m1 ∧ digit w 3 = modeDigit m2 ∧
      i = mk m1 m2 ∧ (rd = .fault → w / 10 ^ 4 = 0) := by
  rcases modeOf_cases (digit w 2) with ⟨m, hd, hm⟩ | ⟨hd, hm⟩
  · rcases modeOf_cases (digit w 3) with ⟨n, he, hn⟩ | ⟨he, hn⟩
    · simp only [decode2, hm, hn, bind, Except.bind, checkReserved_ok]
      constructor
      · rintro ⟨rfl, h⟩; exact ⟨m, n, hd, he, rfl, h⟩
      · rintro ⟨m', n', h1, h2, rfl, h⟩
        have e1 : m = m' := by cases m <;> cases m' <;> simp_all [modeDigit]
        have e2 : n = n' := by cases n <;> cases n' <;> simp_all [modeDigit]
        exact ⟨by rw [e1, e2], h⟩
    · simp only [decode2, hm, hn, bind, Except.bind, reduceCtorEq, false_iff]
      rintro ⟨m', n', -, h', -⟩
      have := modeDigit_lt n'
      omega
  · simp only [decode2, hm, bind, Except.bind, reduceCtorEq, false_iff]
    rintro ⟨m', n', h', -⟩
    have := modeDigit_lt m'
    omega

theorem decode3_ok {rd : ReservedDigits} {w : Nat} {mk : Mode → Mode → Mode → Instr} {i : Instr} :
    decode3 rd w mk = .ok i ↔ ∃ m1 m2 m3, digit w 2 = modeDigit m1 ∧ digit w 3 = modeDigit m2 ∧
      digit w 4 = modeDigit m3 ∧ i = mk m1 m2 m3 ∧ (rd = .fault → w / 10 ^ 5 = 0) := by
  rcases modeOf_cases (digit w 2) with ⟨m, hd, hm⟩ | ⟨hd, hm⟩
  · rcases modeOf_cases (digit w 3) with ⟨n, he, hn⟩ | ⟨he, hn⟩
    · rcases modeOf_cases (digit w 4) with ⟨o, hf, ho⟩ | ⟨hf, ho⟩
      · simp only [decode3, hm, hn, ho, bind, Except.bind, checkReserved_ok]
        constructor
        · rintro ⟨rfl, h⟩; exact ⟨m, n, o, hd, he, hf, rfl, h⟩
        · rintro ⟨m', n', o', h1, h2, h3, rfl, h⟩
          have e1 : m = m' := by cases m <;> cases m' <;> simp_all [modeDigit]
          have e2 : n = n' := by cases n <;> cases n' <;> simp_all [modeDigit]
          have e3 : o = o' := by cases o <;> cases o' <;> simp_all [modeDigit]
          exact ⟨by rw [e1, e2, e3], h⟩
      · simp only [decode3, hm, hn, ho, bind, Except.bind, reduceCtorEq, false_iff]
        rintro ⟨m', n', o', -, -, h', -⟩
        have := modeDigit_lt o'
        omega
    · simp only [decode3, hm, hn, bind, Except.bind, reduceCtorEq, false_iff]
      rintro ⟨m', n', o', -, h', -⟩
      have := modeDigit_lt n'
      omega
  · simp only [decode3, hm, bind, Except.bind, reduceCtorEq, false_iff]
    rintro ⟨m', n', o', h', -⟩
    have := modeDigit_lt m'
    omega

/-- The operation code decides which decoder runs (spec/40_decode_resolve_loop.md R111). -/
theorem decodeNat_of_opcode (rd : ReservedDigits) (w : Nat) :
    (w % 100 = 1 ∧ decodeNat rd w = decode3 rd w .add) ∨
    (w % 100 = 2 ∧ decodeNat rd w = decode3 rd w .mul) ∨
    (w % 100 = 3 ∧ decodeNat rd w = decode1 rd w .inp) ∨
    (w % 100 = 4 ∧ decodeNat rd w = decode1 rd w .out) ∨
    (w % 100 = 5 ∧ decodeNat rd w = decode2 rd w .jt) ∨
    (w % 100 = 6 ∧ decodeNat rd w = decode2 rd w .jf) ∨
    (w % 100 = 7 ∧ decodeNat rd w = decode3 rd w .lt) ∨
    (w % 100 = 8 ∧ decodeNat rd w = decode3 rd w .eq) ∨
    (w % 100 = 9 ∧ decodeNat rd w = decode1 rd w .arb) ∨
    (w % 100 = 99 ∧ decodeNat rd w = checkReserved rd 0 w .halt) ∨
    (Machine.operandCount (w % 100) = none ∧ decodeNat rd w = .error .malformedOpcode) := by
  unfold decodeNat
  generalize w % 100 = x
  split
  case h_11 => simp_all [Machine.operandCount]
  all_goals simp

/-- An accepted word ends in the operation code of what it decodes to. -/
theorem opcode_of_decodeNat {rd : ReservedDigits} {w : Nat} {i : Instr} (h : decodeNat rd w = .ok i) :
    w % 100 = i.opcode := by
  rcases decodeNat_of_opcode rd w with ⟨ho, hd⟩ | ⟨ho, hd⟩ | ⟨ho, hd⟩ | ⟨ho, hd⟩ | ⟨ho, hd⟩ |
    ⟨ho, hd⟩ | ⟨ho, hd⟩ | ⟨ho, hd⟩ | ⟨ho, hd⟩ | ⟨ho, hd⟩ | ⟨ho, hd⟩ <;> rw [hd] at h
  · obtain ⟨_, _, _, -, -, -, rfl, -⟩ := decode3_ok.1 h; exact ho
  · obtain ⟨_, _, _, -, -, -, rfl, -⟩ := decode3_ok.1 h; exact ho
  · obtain ⟨_, -, rfl, -⟩ := decode1_ok.1 h; exact ho
  · obtain ⟨_, -, rfl, -⟩ := decode1_ok.1 h; exact ho
  · obtain ⟨_, _, -, -, rfl, -⟩ := decode2_ok.1 h; exact ho
  · obtain ⟨_, _, -, -, rfl, -⟩ := decode2_ok.1 h; exact ho
  · obtain ⟨_, _, _, -, -, -, rfl, -⟩ := decode3_ok.1 h; exact ho
  · obtain ⟨_, _, _, -, -, -, rfl, -⟩ := decode3_ok.1 h; exact ho
  · obtain ⟨_, -, rfl, -⟩ := decode1_ok.1 h; exact ho
  · obtain ⟨rfl, -⟩ := checkReserved_ok.1 h; exact ho
  · cases h

/-- A word is accepted as an instruction of three slots exactly when its digits say so. -/
theorem decode3_iff {rd : ReservedDigits} {w : Nat} {mk : Mode → Mode → Mode → Instr}
    (inj : ∀ a b c a' b' c', mk a b c = mk a' b' c' → a = a' ∧ b = b' ∧ c = c') (a b c : Mode) :
    decode3 rd w mk = .ok (mk a b c) ↔ digit w 2 = modeDigit a ∧ digit w 3 = modeDigit b ∧
      digit w 4 = modeDigit c ∧ (rd = .fault → w / 10 ^ 5 = 0) := by
  rw [decode3_ok]
  constructor
  · rintro ⟨a', b', c', h1, h2, h3, he, hr⟩
    obtain ⟨rfl, rfl, rfl⟩ := inj _ _ _ _ _ _ he
    exact ⟨h1, h2, h3, hr⟩
  · rintro ⟨h1, h2, h3, hr⟩
    exact ⟨a, b, c, h1, h2, h3, rfl, hr⟩

/-- The same for two slots. -/
theorem decode2_iff {rd : ReservedDigits} {w : Nat} {mk : Mode → Mode → Instr}
    (inj : ∀ a b a' b', mk a b = mk a' b' → a = a' ∧ b = b') (a b : Mode) :
    decode2 rd w mk = .ok (mk a b) ↔ digit w 2 = modeDigit a ∧ digit w 3 = modeDigit b ∧
      (rd = .fault → w / 10 ^ 4 = 0) := by
  rw [decode2_ok]
  constructor
  · rintro ⟨a', b', h1, h2, he, hr⟩
    obtain ⟨rfl, rfl⟩ := inj _ _ _ _ he
    exact ⟨h1, h2, hr⟩
  · rintro ⟨h1, h2, hr⟩
    exact ⟨a, b, h1, h2, rfl, hr⟩

/-- The same for one slot. -/
theorem decode1_iff {rd : ReservedDigits} {w : Nat} {mk : Mode → Instr}
    (inj : ∀ a a', mk a = mk a' → a = a') (a : Mode) :
    decode1 rd w mk = .ok (mk a) ↔ digit w 2 = modeDigit a ∧ (rd = .fault → w / 10 ^ 3 = 0) := by
  rw [decode1_ok]
  constructor
  · rintro ⟨a', h1, he, hr⟩
    obtain rfl := inj _ _ he
    exact ⟨h1, hr⟩
  · rintro ⟨h1, hr⟩
    exact ⟨a, h1, rfl, hr⟩

theorem decode_nat (rd : ReservedDigits) (w : Nat) : decode rd (w : Int) = decodeNat rd w := by
  have : ¬ ((w : Int) < 0) := by omega
  simp [decode, this]

theorem decode_negative (rd : ReservedDigits) {w : Int} (h : w < 0) :
    decode rd w = .error .malformedOpcode := by
  simp [decode, h]

/-! ### The decoder and the list of checks (spec/60_exceptions.md R217, item 2) -/

namespace Machine

/-- What a decoder's answer raises, with the word `w` as info. -/
def raisedBy (w : Int) : Except Reject Instr → Option Raise
  | .ok _ => none
  | .error e => some ⟨causeOf e, w⟩

theorem firstFailure_mode (d : Nat) (w : Int) (l : List Check) :
    firstFailure ((decide (2 < d), .illegalMode, w) :: l) =
      match modeOf d with
      | .ok _ => firstFailure l
      | .error e => some ⟨causeOf e, w⟩ := by
  rcases modeOf_cases d with ⟨m, hd, hm⟩ | ⟨hd, hm⟩
  · have : ¬ 2 < d := by have := modeDigit_lt m; omega
    simp [firstFailure, hm, this]
  · simp [firstFailure, hm, hd, causeOf]

theorem firstFailure_reserved (rd : ReservedDigits) (n v : Nat) (w : Int) (i : Instr) :
    firstFailure [(decide (rd = .fault) && decide (v / 10 ^ (n + 2) ≠ 0), .illegalMode, w)] =
      raisedBy w (checkReserved rd n v i) := by
  cases rd with
  | ignore => simp [firstFailure, checkReserved, raisedBy]
  | fault =>
    by_cases h : v / 10 ^ (n + 2) = 0
    · simp only [firstFailure, checkReserved, raisedBy, h]; rfl
    · simp only [firstFailure, checkReserved, if_neg h, raisedBy, causeOf]
      simp only [h, ne_eq, not_false_eq_true, decide_true, Bool.and_self, if_true]

theorem firstFailure_decode1 (rd : ReservedDigits) (v : Nat) (w : Int) (mk : Mode → Instr) :
    firstFailure [(decide (2 < digit v 2), .illegalMode, w),
        (decide (rd = .fault) && decide (v / 10 ^ (1 + 2) ≠ 0), .illegalMode, w)] =
      raisedBy w (decode1 rd v mk) := by
  rw [firstFailure_mode]
  unfold decode1
  cases modeOf (digit v 2) with
  | error e => rfl
  | ok m => exact firstFailure_reserved rd 1 v w (mk m)

theorem firstFailure_decode2 (rd : ReservedDigits) (v : Nat) (w : Int) (mk : Mode → Mode → Instr) :
    firstFailure [(decide (2 < digit v 2), .illegalMode, w), (decide (2 < digit v 3), .illegalMode, w),
        (decide (rd = .fault) && decide (v / 10 ^ (2 + 2) ≠ 0), .illegalMode, w)] =
      raisedBy w (decode2 rd v mk) := by
  rw [firstFailure_mode, firstFailure_mode]
  unfold decode2
  cases modeOf (digit v 2) with
  | error e => rfl
  | ok m =>
    cases modeOf (digit v 3) with
    | error e => rfl
    | ok m' => exact firstFailure_reserved rd 2 v w (mk m m')

theorem firstFailure_decode3 (rd : ReservedDigits) (v : Nat) (w : Int)
    (mk : Mode → Mode → Mode → Instr) :
    firstFailure [(decide (2 < digit v 2), .illegalMode, w), (decide (2 < digit v 3), .illegalMode, w),
        (decide (2 < digit v 4), .illegalMode, w),
        (decide (rd = .fault) && decide (v / 10 ^ (3 + 2) ≠ 0), .illegalMode, w)] =
      raisedBy w (decode3 rd v mk) := by
  rw [firstFailure_mode, firstFailure_mode, firstFailure_mode]
  unfold decode3
  cases modeOf (digit v 2) with
  | error e => rfl
  | ok m =>
    cases modeOf (digit v 3) with
    | error e => rfl
    | ok m' =>
      cases modeOf (digit v 4) with
      | error e => rfl
      | ok m'' => exact firstFailure_reserved rd 3 v w (mk m m' m'')

/-- The decoder raises exactly the first failing check of the table's order. -/
theorem firstFailure_decodeChecks (s : State) :
    firstFailure (decodeChecks s) =
      raisedBy (s.mem.get s.pc) (decode s.params.reserved (s.mem.get s.pc)) := by
  by_cases hw : s.mem.get s.pc < 0
  · simp [decodeChecks, firstFailure, hw, decode_negative, raisedBy, causeOf]
  · obtain ⟨n, hn⟩ := Int.eq_ofNat_of_zero_le (by omega : 0 ≤ s.mem.get s.pc)
    have hneg : ¬ ((n : Int) < 0) := by omega
    simp only [decodeChecks, hn, decode_nat, Int.toNat_natCast, hneg, decide_false]
    rcases decodeNat_of_opcode s.params.reserved n with ⟨ho, hd⟩ | ⟨ho, hd⟩ | ⟨ho, hd⟩ | ⟨ho, hd⟩ |
      ⟨ho, hd⟩ | ⟨ho, hd⟩ | ⟨ho, hd⟩ | ⟨ho, hd⟩ | ⟨ho, hd⟩ | ⟨ho, hd⟩ | ⟨ho, hd⟩ <;> rw [ho, hd]
    · exact firstFailure_decode3 _ n n .add
    · exact firstFailure_decode3 _ n n .mul
    · exact firstFailure_decode1 _ n n .inp
    · exact firstFailure_decode1 _ n n .out
    · exact firstFailure_decode2 _ n n .jt
    · exact firstFailure_decode2 _ n n .jf
    · exact firstFailure_decode3 _ n n .lt
    · exact firstFailure_decode3 _ n n .eq
    · exact firstFailure_decode1 _ n n .arb
    · exact firstFailure_reserved _ 0 n n .halt
    · rfl

end Machine

end Sys2Proof
end

