-- ==== Sys2Proof/Tests/Slice0.lean ====
section
/-! SUPPORT. The model's own tests. Expected results are those of spec/95_test_vectors.md (the id is in the
comment) or of the worked examples of the rules cited. After them, for every obligation with hypotheses, a
concrete state that meets them. -/

namespace Sys2Proof.Tests

open Sys2Proof Sys2Proof.Machine

/-- An engine reset with an image. -/
def boot (p : List Int) : State := resetWith p State.reset

/-- An engine in the middle of a run: an image, a cursor and a base. -/
def midRun (p : List Int) (pc : Nat) (rb : Int) : State :=
  { boot p with pc := pc, rb := rb, started := true }

/-- An engine whose host has moves to make. -/
def withMoves (s : State) (moves : List HostMove) : State := { s with inbox := moves }

/-- An IN suspended with its destination latched. -/
def waitingIn (p : List Int) (d : Nat) : State :=
  { midRun p 0 0 with status := .suspendedForInput, ioAddr := d }

/-- An OUT suspended with its value latched. -/
def waitingOut (p : List Int) (v : Int) : State :=
  { midRun p 0 0 with status := .suspendedForOutput, ioVal := v }

/-- The state of a transition that answers one. -/
def after (o : Result) : Option State :=
  match o with
  | .next s => some s
  | .fault _ => none
  | .refused _ => none

/-- The cell `a` after a transition. -/
def cellAfter (a : Nat) (o : Result) : Option Int := (after o).map (fun s => s.mem.get a)

/-- The cursor after a transition. -/
def pcAfter (o : Result) : Option Nat := (after o).map (fun s => s.pc)

/-- The fault record after a transition that ends Faulted. -/
def recordAfter (o : Result) : Option (Cause × Nat × Int) :=
  match o with
  | .next s => if s.status = .faulted then some (s.fcause, s.fpc, s.faddr) else none
  | .fault _ => none
  | .refused _ => none

/-- Why a transition was refused. -/
def refusalOf (o : Result) : Option Refusal :=
  match o with
  | .next _ => none
  | .fault _ => none
  | .refused r => some r

/-- What the decoder gives. -/
def decoded (rd : ReservedDigits) (w : Int) : Option Instr :=
  match decode rd w with
  | .ok i => some i
  | .error _ => none

/-- Why the decoder rejects. -/
def rejected (rd : ReservedDigits) (w : Int) : Option Reject :=
  match decode rd w with
  | .ok _ => none
  | .error r => some r

/-! ### WellFormed: each check refuses an ill-formed term (R87, R94) -/

theorem test_wf_add_refuses_immediate_destination :
    (Instr.add .position .position .immediate).wf = false := by decide
theorem test_wf_mul_refuses_immediate_destination :
    (Instr.mul .position .position .immediate).wf = false := by decide
theorem test_wf_lt_refuses_immediate_destination :
    (Instr.lt .position .position .immediate).wf = false := by decide
theorem test_wf_eq_refuses_immediate_destination :
    (Instr.eq .position .position .immediate).wf = false := by decide
theorem test_wf_in_refuses_immediate_destination : (Instr.inp .immediate).wf = false := by decide
theorem test_wf_accepts_relative_destination :
    (Instr.add .immediate .immediate .relative).wf = true := by decide

/-! ### Decode: words written out from the decimal patterns (R83, R88; section 2.2) -/

theorem test_decode_add : decoded .fault 22201 = some (.add .relative .relative .relative) := by decide
theorem test_decode_mul : decoded .fault 1002 = some (.mul .position .immediate .position) := by decide
theorem test_decode_in : decoded .fault 203 = some (.inp .relative) := by decide
theorem test_decode_out : decoded .fault 104 = some (.out .immediate) := by decide
theorem test_decode_jt : decoded .fault 1105 = some (.jt .immediate .immediate) := by decide
theorem test_decode_jf : decoded .fault 1206 = some (.jf .relative .immediate) := by decide
theorem test_decode_lt : decoded .fault 21107 = some (.lt .immediate .immediate .relative) := by decide
theorem test_decode_eq : decoded .fault 1008 = some (.eq .position .immediate .position) := by decide
theorem test_decode_arb : decoded .fault 209 = some (.arb .relative) := by decide
theorem test_decode_halt : decoded .fault 99 = some (.halt) := by decide
theorem test_decode_immediate_destination : decoded .fault 103 = some (.inp .immediate) := by decide
theorem test_reject_operation_before_digit : rejected .fault 398 = some .malformedOpcode := by decide
theorem test_reject_negative : rejected .fault (-1101) = some .malformedOpcode := by decide
theorem test_reject_slot_three : rejected .ignore 30001 = some .illegalMode := by decide
theorem test_reject_reserved : rejected .fault 100001 = some .illegalMode := by decide
theorem test_ignore_reserved :
    decoded .ignore 100001 = some (.add .position .position .position) := by decide
/-- spec/30_encoding.md R96: `MUL [4], #3, [4]` assembles to `1002,4,3,4`. -/
theorem test_assemble_mul :
    assemble (.mul .position .immediate .position) [4, 3, 4] = [1002, 4, 3, 4] := by decide
theorem test_table_word : decodeTableWord 8 99 = some .halt := by decide

/-! ### One step of each instruction -/

/-- A1. -/
theorem test_add :
    cellAfter 0 (step (boot [1, 5, 6, 0, 99, 30, 12])) = some 42 := by decide
/-- A9. -/
theorem test_add_overflow :
    recordAfter (step (boot [1101, 9223372036854775807, 1, 0, 99]))
      = some (.overflow, 0, 9223372036854775808) := by decide
/-- M3. -/
theorem test_mul_overflow :
    recordAfter (step (boot [1102, -9223372036854775808, -1, 0, 99]))
      = some (.overflow, 0, 9223372036854775808) := by decide
/-- V1. -/
theorem test_mul :
    cellAfter 7 (step (boot [1102, 34915192, 34915192, 7, 4, 7, 99, 0])) = some 1219070632396864 := by decide
/-- I1, step by step. -/
theorem test_in :
    (after (step (boot [3, 0, 4, 0, 99]))).map (fun s => (s.status, s.ioAddr, s.pc, s.event))
      = some (.suspendedForInput, 0, 0, some .read) := by decide
/-- I3. -/
theorem test_in_immediate :
    recordAfter (step (boot [103, 0, 99])) = some (.illegalMode, 0, 103) := by decide
/-- O2. -/
theorem test_out :
    (after (step (boot [104, -5, 99]))).map (fun s => (s.status, s.pc, s.event))
      = some (.suspendedForOutput, 0, some (.write (-5))) := by decide
/-- O4. -/
theorem test_out_straddles :
    recordAfter (step (boot [4])) = some (.outOfBounds, 0, 1) := by decide
/-- J5. -/
theorem test_jt_negative_condition :
    pcAfter (step (boot [1105, -1, 4, 99, 104, 7, 99])) = some 4 := by decide
/-- J6. -/
theorem test_jt_negative_target :
    recordAfter (step (boot [1105, 1, -3, 99])) = some (.outOfBounds, 0, -3) := by decide
/-- J4. -/
theorem test_jf_not_taken :
    pcAfter (step (boot [1106, 5, 6, 104, 8, 99, 104, 9, 99])) = some 3 := by decide
/-- J10. -/
theorem test_jf_resolves_both :
    recordAfter (step (boot [6, 1, 50, 99])) = some (.outOfBounds, 0, 50) := by decide
/-- C3. -/
theorem test_lt_signed :
    cellAfter 5 (step (boot [1107, -9223372036854775808, 9223372036854775807, 5, 99, 7]))
      = some 1 := by decide
/-- C6. -/
theorem test_lt_source_is_destination :
    cellAfter 5 (step (boot [7, 5, 6, 5, 99, 3, 4])) = some 1 := by decide
/-- C4. -/
theorem test_eq :
    cellAfter 5 (step (boot [1108, 5, 5, 5, 99, 7])) = some 1 := by decide
/-- C5. -/
theorem test_eq_differs :
    cellAfter 5 (step (boot [1108, 5, -5, 5, 99, 7])) = some 0 := by decide
/-- R4. -/
theorem test_arb_old_base :
    (after (step (midRun [109, 4, 209, 1, 99, 10] 2 4))).map (fun s => (s.rb, s.pc)) = some (14, 4) := by decide
/-- R5. -/
theorem test_arb_overflow :
    recordAfter (step (midRun [109, 9223372036854775807, 109, 1, 99] 2 9223372036854775807))
      = some (.overflow, 2, 9223372036854775808) := by decide
/-- H1. -/
theorem test_halt :
    (after (step (boot [99]))).map (fun s => (s.status, s.pc)) = some (.halted, 0) := by decide
/-- H5. -/
theorem test_halt_reserved_digit :
    recordAfter (step (boot [199])) = some (.illegalMode, 0, 199) := by decide

/-! ### The loop, the host, growth, reset -/

/-- A13. -/
theorem test_straddling : recordAfter (step (boot [1101, 1, 2])) = some (.outOfBounds, 0, 3) := by decide
/-- X1. -/
theorem test_slot_order :
    recordAfter (step (boot [10001, 9, 0, 0, 99])) = some (.outOfBounds, 0, 9) := by decide
/-- H2. -/
theorem test_empty_image : (after (step (boot []))).map (fun s => s.status) = some .halted := by decide
/-- I1: the completion. -/
theorem test_input_completion :
    (after (step (withMoves (waitingIn [3, 0, 4, 0, 99] 0) [.value 77]))).map
      (fun s => (s.mem.get 0, s.pc, s.status)) = some (77, 2, .running) := by decide
/-- I2. -/
theorem test_input_exhausted :
    recordAfter (step (withMoves (waitingIn [3, 0, 4, 0, 99] 0) [.exhausted]))
      = some (.inputExhausted, 0, 0) := by decide
/-- I1: the acknowledgement. -/
theorem test_output_completion :
    pcAfter (step (withMoves (waitingOut [4, 0, 99] 4) [.ack])) = some 2 := by decide
/-- U10 of spec/93_implementation_defined.md. -/
theorem test_ack_to_read :
    refusalOf (step (withMoves (waitingIn [3, 0, 99] 0) [.ack])) = some .replyNotDue := by decide
/-- U6. -/
theorem test_reply_out_of_range :
    refusalOf (step (withMoves (waitingIn [3, 0, 99] 0) [.value 9223372036854775808]))
      = some .valueOutOfRange := by decide
/-- G3. -/
theorem test_growth :
    (after (step (withMoves (boot [99]) [.grow 3]))).map (fun s => (s.len, s.mem)) = some (3, [(0, 99)]) := by
  decide
/-- G1. -/
theorem test_growth_below_size :
    recordAfter (step (withMoves (boot [99]) [.grow 0])) = some (.growthBelowSize, 0, 0) := by decide
/-- U8. -/
theorem test_growth_during_run :
    refusalOf (step (withMoves (midRun [99] 0 0) [.grow 3])) = some .growNotBeforeRun := by decide
/-- U7. -/
theorem test_growth_beyond_max :
    refusalOf (step (withMoves (boot [99]) [.grow 9223372036854775804])) = some .growBeyondMax := by decide
/-- R250: an image is loaded verbatim; a cell that holds 0 is not listed. -/
theorem test_reset_loads :
    (after (step (withMoves (midRun [99] 1 5) [.reset [0, 7]]))).map
      (fun s => (s.mem, s.len, s.pc, s.rb, s.started)) = some ([(1, 7)], 2, 0, 0, false) := by decide
theorem test_reset_memory_wf : State.reset.mem.wf = true := by decide
/-- A word placed with `withFetchWord` is run by the next step, from reset. -/
theorem test_withFetchWord :
    (after (step (State.reset.withFetchWord 7 99))).map (fun s => s.status) = some .halted := by decide
theorem test_withFetchWord_add :
    cellAfter 0 (step (State.reset.withFetchWord 7 1)) = some 2 := by decide

/-! ### The drivers -/

/-- R168: the next call acknowledges the output and goes on with the next of the supply; I1. -/
theorem test_next_output_resumes :
    carry (nextOutput takeQueue 4 ⟨{ waitingOut [4, 0, 3, 0, 4, 0, 99] 4 with ioVal := 4 }, [77, 5]⟩)
      (fun e => (e.1, e.2.supply)) = .next (.some 77, [5]) := by rfl
/-- A supply that is no queue: the natural numbers, one after the other. -/
theorem test_next_output_endless_supply :
    carry (nextOutput (fun n : Nat => some ((n : Int), n + 1)) 4 ⟨boot [3, 0, 4, 0, 99], 7⟩)
      (fun e => (e.1, e.2.supply)) = .next (.some 7, 8) := by rfl
/-- R166, R208: the callback run returns once Halted, and not before. -/
theorem test_handler_returns :
    carry (handlerCall queueHandler 5 ⟨boot [3, 0, 4, 0, 99], ([77], [])⟩) Prod.fst
      = .next (.returned ([], [77])) := by rfl
theorem test_handler_unfinished :
    carry (handlerCall queueHandler 4 ⟨boot [3, 0, 4, 0, 99], ([77], [])⟩) Prod.fst
      = .next .unfinished := by rfl
/-- O3: the run fails with the fault record. -/
theorem test_handler_fails :
    carry (handlerCall queueHandler 4 ⟨boot [4, 7, 99], ([], [])⟩) Prod.fst
      = .next (.failed .outOfBounds 0 7 ([], [])) := by rfl
/-- I1 under the scripted convention. -/
theorem test_scripted_call :
    carry (scriptedCall 5 [77] (boot [3, 0, 4, 0, 99])) Prod.fst = .next (.returned [77]) := by rfl
/-- R233: the first engine is offered its phase setting and then the signal; the second, halting, ends the
ring with the signal it had. -/
theorem test_ring :
    carry (ringCall 9 2 [(boot [3, 0, 3, 1, 4, 1], 9), (boot [99], 8)] 3)
      (fun p => match p with
        | .result v r => some (v, r.members.map (fun m => (m.engine.mem.get 0, m.first)))
        | .goes _ => none
        | .failed _ => none
        | .unfinished _ => none
        | .empty => none) = .next (some (3, [(9, false), (99, false)])) := by rfl

/-! ### Witnesses: each obligation's hypotheses are met, each clause at a boundary value -/

theorem witness_ReservedDigitRule :
    ((boot [199]).status = .running ∧ hostIdle (boot [199]) = true ∧ (boot [199]).pc < (boot [199]).len ∧
      (boot [199]).params.reserved = .fault ∧ (boot [199]).mem.get 0 = 199) ∧
    (operandCount (199 % 100) = some 0 ∧ 199 / 10 ^ (0 + 2) ≠ 0) ∧
    (operandCount (100001 % 100) = some 3 ∧ 100001 / 10 ^ (3 + 2) ≠ 0) := by decide
theorem witness_UnrecognisedWordFaults :
    ((boot [-1]).status = .running ∧ hostIdle (boot [-1]) = true ∧ (boot [-1]).pc < (boot [-1]).len ∧ (boot [-1]).mem.get 0 < 0) ∧
    ((boot [10]).status = .running ∧ hostIdle (boot [10]) = true ∧ (boot [10]).pc < (boot [10]).len ∧
      (boot [10]).mem.get 0 % 100 ∉ ([1, 2, 3, 4, 5, 6, 7, 8, 9, 99] : List Int)) := by decide
theorem witness_UsedModeDigitAboveTwoFaults :
    ((boot [301]).status = .running ∧ hostIdle (boot [301]) = true ∧ (boot [301]).pc < (boot [301]).len ∧ 0 ≤ (boot [301]).mem.get 0 ∧
      operandCount (((boot [301]).mem.get 0).toNat % 100) = some 3 ∧
      3 ≤ digit ((boot [301]).mem.get 0).toNat (1 + 1)) ∧
    ((boot [30001]).status = .running ∧ hostIdle (boot [30001]) = true ∧ (boot [30001]).pc < (boot [30001]).len ∧ 0 ≤ (boot [30001]).mem.get 0 ∧
      operandCount (((boot [30001]).mem.get 0).toNat % 100) = some 3 ∧
      3 ≤ digit ((boot [30001]).mem.get 0).toNat (3 + 1)) := by decide
/-- The state of spec/40_decode_resolve_loop.md R121. -/
def worked : State :=
  { State.reset with
    pc := 10, rb := 50, len := 100, mem := [(7, 70), (11, 7), (12, -3), (13, 60), (47, 80)] }
theorem witness_WorkedResolutions :
    worked.pc = 10 ∧ worked.rb = 50 ∧ worked.len = 100 ∧ worked.mem.get 11 = 7 ∧ worked.mem.get 12 = -3 ∧
    worked.mem.get 13 = 60 ∧ worked.mem.get 7 = 70 ∧ worked.mem.get 47 = 80 := by decide
/-- R9: base and literal both `INT_MAX`. -/
def topBase : State := midRun [204, 9223372036854775807, 99] 0 9223372036854775807
/-- One below `INT_MIN`. -/
def lowBase : State := midRun [204, -1, 99] 0 (-9223372036854775808)
theorem topBase_inv : topBase.Inv := by constructor <;> decide
theorem lowBase_inv : lowBase.Inv := by constructor <;> decide
theorem witness_RelativeSumNeverWraps :
    (topBase.Inv ∧ topBase.pc + 1 < topBase.len ∧
      inRange topBase.params.width (topBase.rb + literal topBase 1) = false) ∧
    (lowBase.Inv ∧ lowBase.pc + 1 < lowBase.len ∧
      inRange lowBase.params.width (lowBase.rb + literal lowBase 1) = false) := 
  ⟨⟨topBase_inv, by decide, by decide⟩, ⟨lowBase_inv, by decide, by decide⟩⟩
theorem witness_AddRule :
    (readable (boot [1101, 9223372036854775806, 1, 0]) .immediate 1 = true ∧ readable (boot [1101, 9223372036854775806, 1, 0]) .immediate 2 = true ∧
      writable (boot [1101, 9223372036854775806, 1, 0]) .position 3 = true ∧
      inRange 64 (operand (boot [1101, 9223372036854775806, 1, 0]) .immediate 1 + operand (boot [1101, 9223372036854775806, 1, 0]) .immediate 2) = true) ∧
    firstFailure (checksOf (.add .immediate .immediate .position) (boot [1101, 9223372036854775807, 1, 0])) = some ⟨.overflow, 9223372036854775808⟩ := by decide
theorem witness_MulRule :
    (readable (boot [1102, 3037000499, 3037000499, 0]) .immediate 1 = true ∧ readable (boot [1102, 3037000499, 3037000499, 0]) .immediate 2 = true ∧
      writable (boot [1102, 3037000499, 3037000499, 0]) .position 3 = true ∧
      inRange 64 (operand (boot [1102, 3037000499, 3037000499, 0]) .immediate 1 * operand (boot [1102, 3037000499, 3037000499, 0]) .immediate 2) = true) ∧
    firstFailure (checksOf (.mul .immediate .immediate .position) (boot [1102, 3037000500, 3037000500, 0])) = some ⟨.overflow, 9223372037000250000⟩ := by decide
theorem witness_LessThanRule :
    (readable (boot [1107, 5, 5, 3]) .immediate 1 = true ∧ readable (boot [1107, 5, 5, 3]) .immediate 2 = true ∧
      writable (boot [1107, 5, 5, 3]) .position 3 = true) ∧
    firstFailure (checksOf (.lt .immediate .immediate .position) (boot [1107, 5, 5, 4])) = some ⟨.outOfBounds, 4⟩ := by decide
theorem witness_EqualsRule :
    (readable (boot [1108, 5, 5, 3]) .immediate 1 = true ∧ readable (boot [1108, 5, 5, 3]) .immediate 2 = true ∧
      writable (boot [1108, 5, 5, 3]) .position 3 = true) ∧
    firstFailure (checksOf (.eq .immediate .immediate .position) (boot [1108, 5, 5, -1])) = some ⟨.outOfBounds, -1⟩ := by decide
theorem witness_InputRule :
    writable (boot [3, 1]) .position 1 = true ∧
    firstFailure (checksOf (.inp .position) (boot [3, 2])) = some ⟨.outOfBounds, 2⟩ := by decide
theorem witness_OutputRule :
    readable (boot [4, 1]) .position 1 = true ∧
    firstFailure (checksOf (.out .position) (boot [4, 2])) = some ⟨.outOfBounds, 2⟩ := by decide
theorem witness_JumpIfTrueRule :
    (readable (boot [1105, -1, 0]) .immediate 1 = true ∧ readable (boot [1105, -1, 0]) .immediate 2 = true ∧
      operand (boot [1105, -1, 0]) .immediate 1 ≠ 0 ∧ 0 ≤ operand (boot [1105, -1, 0]) .immediate 2) ∧
    (readable (boot [1105, 0, -1]) .immediate 1 = true ∧ readable (boot [1105, 0, -1]) .immediate 2 = true ∧
      operand (boot [1105, 0, -1]) .immediate 1 = 0) ∧
    firstFailure (checksOf (.jt .immediate .immediate) (boot [1105, -1, -1]))
      = some ⟨.outOfBounds, -1⟩ := by decide
theorem witness_JumpIfFalseRule :
    (readable (boot [1106, 0, 0]) .immediate 1 = true ∧ readable (boot [1106, 0, 0]) .immediate 2 = true ∧
      operand (boot [1106, 0, 0]) .immediate 1 = 0 ∧ 0 ≤ operand (boot [1106, 0, 0]) .immediate 2) ∧
    (readable (boot [1106, 1, -1]) .immediate 1 = true ∧ readable (boot [1106, 1, -1]) .immediate 2 = true ∧
      operand (boot [1106, 1, -1]) .immediate 1 ≠ 0) ∧
    firstFailure (checksOf (.jf .immediate .immediate) (boot [1106, 0, -1]))
      = some ⟨.outOfBounds, -1⟩ := by decide
theorem witness_AdjustBaseRule :
    (readable (midRun [109, 1] 0 9223372036854775806) .immediate 1 = true ∧
      inRange 64 ((midRun [109, 1] 0 9223372036854775806).rb +
        operand (midRun [109, 1] 0 9223372036854775806) .immediate 1) = true) ∧
    firstFailure (checksOf (.arb .immediate) (midRun [109, 1] 0 9223372036854775807))
      = some ⟨.overflow, 9223372036854775808⟩ := by decide
theorem witness_HaltRule :
    (boot [99]).status = .running ∧ hostIdle (boot [99]) = true ∧ (boot [99]).pc < (boot [99]).len ∧ (boot [99]).mem.get 0 = 99 := by decide
theorem witness_StoringFrame :
    (∃ t, exec (.add .immediate .immediate .position) (boot [1101, 1, 1, 0]) = .next t) ∧
    (∃ t, exec (.mul .immediate .immediate .position) (boot [1102, 1, 1, 0]) = .next t) ∧
    (∃ t, exec (.lt .immediate .immediate .position) (boot [1107, 1, 1, 0]) = .next t) ∧
    (∃ t, exec (.eq .immediate .immediate .position) (boot [1108, 1, 1, 0]) = .next t) ∧
    (∃ t, exec (.add .immediate .immediate .position) (boot [1101, 9223372036854775807, 1, 0]) = .next t) ∧
    readAddress (boot [1101, 1, 1, 0]) .position 3 = .ok 0 ∧
    (∀ d, readAddress (boot [1101, 1, 1, 4]) .position 3 ≠ .ok d) := 
  ⟨⟨_, rfl⟩, ⟨_, rfl⟩, ⟨_, rfl⟩, ⟨_, rfl⟩, ⟨_, rfl⟩, rfl, fun _ h => by cases h⟩
theorem witness_NonStoringFrame :
    (storesMemory (.inp .position) = false ∧ ∃ t, exec (.inp .position) (boot [3, 0]) = .next t) ∧
    (storesMemory (.out .position) = false ∧ ∃ t, exec (.out .position) (boot [4, 0]) = .next t) ∧
    (storesMemory (.jt .immediate .immediate) = false ∧ ∃ t, exec (.jt .immediate .immediate) (boot [1105, 1, 0]) = .next t) ∧
    (storesMemory (.jf .immediate .immediate) = false ∧ ∃ t, exec (.jf .immediate .immediate) (boot [1106, 1, 0]) = .next t) ∧
    (storesMemory (.arb .immediate) = false ∧ ∃ t, exec (.arb .immediate) (boot [109, 1]) = .next t) ∧
    (storesMemory (.halt) = false ∧ ∃ t, exec (.halt) (boot [99]) = .next t) ∧
    (storesMemory (.halt) = false ∧ ∃ t, exec (.halt) (boot []) = .next t) := 
  ⟨⟨rfl, _, rfl⟩, ⟨rfl, _, rfl⟩, ⟨rfl, _, rfl⟩, ⟨rfl, _, rfl⟩, ⟨rfl, _, rfl⟩, ⟨rfl, _, rfl⟩, ⟨rfl, _, rfl⟩⟩
theorem witness_StepRunsDecodedInstruction :
    (boot [1002, 4, 3, 4, 33]).status = .running ∧ hostIdle (boot [1002, 4, 3, 4, 33]) = true ∧ (boot [1002, 4, 3, 4, 33]).pc < (boot [1002, 4, 3, 4, 33]).len ∧
    decode .fault ((boot [1002, 4, 3, 4, 33]).mem.get 0) = .ok (.mul .position .immediate .position) := 
  ⟨rfl, rfl, by decide, rfl⟩
theorem witness_ImplicitHalt :
    (State.reset.status = .running ∧ hostIdle State.reset = true ∧ State.reset.len ≤ State.reset.pc) ∧
    ((midRun [99] 100 0).status = .running ∧ hostIdle (midRun [99] 100 0) = true ∧
      (midRun [99] 100 0).len ≤ (midRun [99] 100 0).pc) := by decide
theorem witness_FirstFailureIsReported :
    (State.reset.status = .running ∧ hostIdle State.reset = true ∧ State.reset.len ≤ State.reset.pc) ∧
    ((boot [398]).status = .running ∧ hostIdle (boot [398]) = true ∧ (boot [398]).pc < (boot [398]).len ∧
      firstFailure (decodeChecks (boot [398])) = some ⟨.malformedOpcode, 398⟩) ∧
    ((boot [10001, 9, 0, 0]).status = .running ∧ hostIdle (boot [10001, 9, 0, 0]) = true ∧ (boot [10001, 9, 0, 0]).pc < (boot [10001, 9, 0, 0]).len ∧
      firstFailure (decodeChecks (boot [10001, 9, 0, 0])) = none ∧
      firstFailure (checksOf (.add .position .position .immediate) (boot [10001, 9, 0, 0]))
        = some ⟨.outOfBounds, 9⟩) ∧
    firstFailure (checksOf .halt (boot [99])) = none ∧
    ((withMoves (waitingIn [3, 0] 0) [.exhausted]).status = .suspendedForInput ∧
      (withMoves (waitingIn [3, 0] 0) [.exhausted]).inbox = [.exhausted]) := by decide
theorem witness_FaultsArePrecise :
    (boot [0]).status ≠ .faulted ∧ ∃ t, step (boot [0]) = .next t ∧ t.status = .faulted := 
  ⟨by decide, _, rfl, rfl⟩
theorem witness_CausesOfEachInstruction :
    decode .fault 0 = .error .malformedOpcode ∧
    ((boot [1105, 1, -1]).status = .running ∧
      ∃ t, exec (.jt .immediate .immediate) (boot [1105, 1, -1]) = .next t ∧ t.status = .faulted) ∧
    mayRaise (.inp .immediate) .illegalMode = true ∧ mayRaise (.out .position) .outOfBounds = true ∧
    mayRaise (.arb .position) .overflow = true ∧
    (waitingIn [3, 0] 0).status = .suspendedForInput := 
  ⟨rfl, ⟨rfl, _, rfl, rfl⟩, rfl, rfl, rfl, rfl⟩
/-- An engine that has halted. -/
def haltedEngine : State := { midRun [99] 0 0 with status := .halted }
theorem witness_OnlyRunningEnginesStep :
    ((waitingIn [3, 0] 0).status ≠ .running ∧ (waitingIn [3, 0] 0).inbox = []) ∧
    (∃ t, step (withMoves (waitingIn [3, 0] 0) [.value 1]) = .next t ∧
      t.status ≠ (waitingIn [3, 0] 0).status) ∧
    (∃ t, step (withMoves (waitingOut [4, 0] 4) [.ack]) = .next t ∧
      t.status ≠ (waitingOut [4, 0] 4).status) ∧
    (replyAwaited (withMoves (waitingIn [3, 0] 0) [.letStep]) = false ∧
      resetPending (withMoves (waitingIn [3, 0] 0) [.letStep]) = false ∧
      ∃ t, step (withMoves (waitingIn [3, 0] 0) [.letStep]) = .next t) ∧
    (haltedEngine.status = .halted ∧ replyAwaited haltedEngine = false ∧
      resetPending haltedEngine = false ∧ ∃ t, step haltedEngine = .next t) := 
  ⟨⟨by decide, rfl⟩, ⟨_, rfl, by decide⟩, ⟨_, rfl, by decide⟩, ⟨rfl, rfl, _, rfl⟩, rfl, rfl, rfl, _, rfl⟩
theorem witness_StatusTransitionsAreLegal :
    resetPending (boot [99]) = false ∧ ∃ t, step (boot [99]) = .next t := ⟨rfl, _, rfl⟩
theorem witness_OnlyArbWritesBase :
    (∃ t, step (boot [109, 5]) = .next t ∧ t.rb ≠ (boot [109, 5]).rb) ∧
    (resetPending (withMoves (midRun [99] 0 5) [.reset [99]]) = true ∧
      ∃ t, step (withMoves (midRun [99] 0 5) [.reset [99]]) = .next t ∧ t.rb ≠ 5) := 
  ⟨⟨_, rfl, by decide⟩, rfl, _, rfl, by decide⟩
theorem witness_LengthFixedDuringRun :
    (∃ t, step (withMoves (boot [99]) [.grow 2]) = .next t ∧
      resetPending (withMoves (boot [99]) [.grow 2]) = false ∧ t.len ≠ (boot [99]).len) ∧
    (∃ t, exec .halt (boot [99]) = .next t) := 
  ⟨⟨_, rfl, rfl, by decide⟩, _, rfl⟩
theorem witness_HaltsAreExplicitOrImplicit :
    (∃ t, step (boot [99]) = .next t ∧ (boot [99]).status = .running ∧ t.status = .halted) ∧
    (∃ t, step (boot []) = .next t ∧ (boot []).status = .running ∧ t.status = .halted) := 
  ⟨⟨_, rfl, rfl, rfl⟩, _, rfl, rfl, rfl⟩
theorem witness_StoredWordIsFetchedNext :
    ((boot [1101, 0, 99, 4, 0]).status = .running ∧ hostIdle (boot [1101, 0, 99, 4, 0]) = true ∧ (boot [1101, 0, 99, 4, 0]).pc < (boot [1101, 0, 99, 4, 0]).len ∧
      decode .fault ((boot [1101, 0, 99, 4, 0]).mem.get 0) = .ok (.add .immediate .immediate .position) ∧
      firstFailure (checksOf (.add .immediate .immediate .position) (boot [1101, 0, 99, 4, 0])) = none ∧
      storedBy (.add .immediate .immediate .position) (boot [1101, 0, 99, 4, 0]) = some (4, 99)) ∧
    ((boot [1102, 11, 9, 4, 0]).status = .running ∧ hostIdle (boot [1102, 11, 9, 4, 0]) = true ∧ (boot [1102, 11, 9, 4, 0]).pc < (boot [1102, 11, 9, 4, 0]).len ∧
      decode .fault ((boot [1102, 11, 9, 4, 0]).mem.get 0) = .ok (.mul .immediate .immediate .position) ∧
      firstFailure (checksOf (.mul .immediate .immediate .position) (boot [1102, 11, 9, 4, 0])) = none ∧
      storedBy (.mul .immediate .immediate .position) (boot [1102, 11, 9, 4, 0]) = some (4, 99)) ∧
    ((boot [1107, 1, 2, 4, 99]).status = .running ∧ hostIdle (boot [1107, 1, 2, 4, 99]) = true ∧ (boot [1107, 1, 2, 4, 99]).pc < (boot [1107, 1, 2, 4, 99]).len ∧
      decode .fault ((boot [1107, 1, 2, 4, 99]).mem.get 0) = .ok (.lt .immediate .immediate .position) ∧
      firstFailure (checksOf (.lt .immediate .immediate .position) (boot [1107, 1, 2, 4, 99])) = none ∧
      storedBy (.lt .immediate .immediate .position) (boot [1107, 1, 2, 4, 99]) = some (4, 1)) ∧
    ((boot [1108, 1, 2, 5, 104, 7]).status = .running ∧ hostIdle (boot [1108, 1, 2, 5, 104, 7]) = true ∧ (boot [1108, 1, 2, 5, 104, 7]).pc < (boot [1108, 1, 2, 5, 104, 7]).len ∧
      decode .fault ((boot [1108, 1, 2, 5, 104, 7]).mem.get 0) = .ok (.eq .immediate .immediate .position) ∧
      firstFailure (checksOf (.eq .immediate .immediate .position) (boot [1108, 1, 2, 5, 104, 7])) = none ∧
      storedBy (.eq .immediate .immediate .position) (boot [1108, 1, 2, 5, 104, 7]) = some (5, 0)) ∧
    ((withMoves (waitingIn [3, 2, 0, 0, 99] 2) [.value 104]).status = .suspendedForInput ∧ (withMoves (waitingIn [3, 2, 0, 0, 99] 2) [.value 104]).inbox = [.value 104] ∧ (withMoves (waitingIn [3, 2, 0, 0, 99] 2) [.value 104]).ioAddr < (withMoves (waitingIn [3, 2, 0, 0, 99] 2) [.value 104]).len ∧
      inRange 64 104 = true ∧ hostIdle (waitingIn [3, 2, 0, 0, 99] 2) = true) := 
  ⟨⟨rfl, rfl, by decide, rfl, by decide, by decide⟩, ⟨rfl, rfl, by decide, rfl, by decide, by decide⟩, ⟨rfl, rfl, by decide, rfl, by decide, by decide⟩, ⟨rfl, rfl, by decide, rfl, by decide, by decide⟩, by decide⟩
theorem witness_CursorMoves :
    (∃ t, step (withMoves (midRun [99] 1 0) [.reset [99]]) = .next t ∧ t.pc ≠ 1) ∧
    (∃ t, step (boot [109, 1]) = .next t ∧ t.pc ≠ 0) ∧
    (takesJump (.jt .immediate .immediate) (boot [1105, 1, 9]) = true ∧
      ∃ t, step (boot [1105, 1, 9]) = .next t ∧ t.pc ≠ 0) ∧
    (takesJump (.jf .immediate .immediate) (boot [1106, 1, 9]) = false ∧
      ∃ t, step (boot [1106, 1, 9]) = .next t ∧ t.pc ≠ 0) ∧
    (∃ t, step (withMoves (waitingOut [4, 0] 4) [.ack]) = .next t ∧ t.pc ≠ 0) := 
  ⟨⟨_, rfl, by decide⟩, ⟨_, rfl, by decide⟩, ⟨rfl, _, rfl, by decide⟩, ⟨rfl, _, rfl, by decide⟩, _, rfl,
    by decide⟩
theorem witness_JumpTargetRanges :
    (readable (boot [1105, 1, 3, 99]) .immediate 1 = true ∧ readable (boot [1105, 1, 3, 99]) .immediate 2 = true ∧
      operand (boot [1105, 1, 3, 99]) .immediate 1 ≠ 0 ∧ 0 ≤ operand (boot [1105, 1, 3, 99]) .immediate 2 ∧ operand (boot [1105, 1, 3, 99]) .immediate 2 < (boot [1105, 1, 3, 99]).len ∧
      (boot [1105, 1, 3, 99]).status = .running ∧ hostIdle (boot [1105, 1, 3, 99]) = true) ∧
    (readable (boot [1105, 1, 4, 99]) .immediate 1 = true ∧ readable (boot [1105, 1, 4, 99]) .immediate 2 = true ∧
      operand (boot [1105, 1, 4, 99]) .immediate 1 ≠ 0 ∧ ((boot [1105, 1, 4, 99]).len : Int) ≤ operand (boot [1105, 1, 4, 99]) .immediate 2 ∧
      (boot [1105, 1, 4, 99]).status = .running ∧ hostIdle (boot [1105, 1, 4, 99]) = true) ∧
    (readable (boot [1105, 1, -1, 99]) .immediate 1 = true ∧ readable (boot [1105, 1, -1, 99]) .immediate 2 = true ∧
      operand (boot [1105, 1, -1, 99]) .immediate 1 ≠ 0 ∧ operand (boot [1105, 1, -1, 99]) .immediate 2 < 0 ∧
      (boot [1105, 1, -1, 99]).status = .running ∧ hostIdle (boot [1105, 1, -1, 99]) = true) ∧
    (readable (boot [1105, 0, -1, 99]) .immediate 1 = true ∧ readable (boot [1105, 0, -1, 99]) .immediate 2 = true ∧
      operand (boot [1105, 0, -1, 99]) .immediate 1 = 0) ∧
    decode .fault ((boot [1105, 1, 3, 99]).mem.get (operand (boot [1105, 1, 3, 99]) .immediate 2).toNat)
      = .ok .halt := 
  ⟨by decide, by decide, by decide, by decide, rfl⟩
theorem witness_UntakenJumpStillResolves :
    (readable (boot [1105, 0]) .immediate 1 = true ∧ readable (boot [1105, 0]) .immediate 2 = false) ∧
    (readable (boot [6, 1, 50, 99]) .position 1 = true ∧ readable (boot [6, 1, 50, 99]) .position 2 = false) := by decide
theorem witness_InputCompletion :
    ((withMoves (waitingIn [3, 1] 1) [.value 9223372036854775807]).status = .suspendedForInput ∧
      (waitingIn [3, 1] 1).ioAddr < (waitingIn [3, 1] 1).len ∧ inRange 64 9223372036854775807 = true) ∧
    ((withMoves (waitingIn [3, 1] 1) [.value 9223372036854775808]).inbox = [.value 9223372036854775808] ∧
      inRange 64 9223372036854775808 = false) ∧
    (([9223372036854775808] : List Int).length ≤ (boot []).params.memMax ∧
      inRange (boot []).params.width 9223372036854775808 = false) := by decide
theorem witness_InputExhaustion :
    (withMoves (waitingIn [3, 1] 1) [.exhausted]).status = .suspendedForInput ∧
    (withMoves (waitingIn [3, 1] 1) [.exhausted]).inbox = [.exhausted] := by decide
theorem witness_OutputCompletion :
    (withMoves (waitingOut [4, 1] 1) [.ack]).status = .suspendedForOutput ∧
    (withMoves (waitingOut [4, 1] 1) [.ack]).inbox = [.ack] := by decide
theorem witness_UnansweredEngineWaits :
    ((waitingIn [3, 1] 1).status = .suspendedForInput ∧ (waitingIn [3, 1] 1).inbox = []) ∧
    ((waitingOut [4, 1] 1).status = .suspendedForOutput ∧ (waitingOut [4, 1] 1).inbox = []) := by decide
theorem witness_MisplacedRepliesAreRefused :
    (boot [99]).status ≠ .suspendedForInput ∧ (waitingIn [3, 1] 1).status ≠ .suspendedForOutput ∧
    (waitingOut [4, 1] 1).status ≠ .suspendedForInput := by decide
theorem witness_OnlyInputAndOutputEmit :
    ((boot [3, 0]).status = .running ∧ ∃ t, step (boot [3, 0]) = .next t ∧ t.event = some .read) ∧
    ((boot [104, -5]).status = .running ∧
      ∃ t, step (boot [104, -5]) = .next t ∧ t.event = some (.write (-5))) := 
  ⟨⟨rfl, _, rfl, rfl⟩, rfl, _, rfl, rfl⟩
theorem boot_halt_inv : (boot [99]).Inv := by constructor <;> decide
theorem witness_InspectionWindows :
    inspectCell 0 (boot [99]) = .ok 99 ∧ inspectCell 1 (boot [99]) = .error .noSuchCell ∧
    inspectCell 0 (midRun [99] 0 0) = .error .inspectDuringRun ∧
    inspectRegisters haltedEngine = .ok (1, 0, 0) ∧ faultRecord haltedEngine = .error .registerNotValid ∧
    inputLatch (waitingIn [3, 1] 1) = .ok 1 ∧ outputLatch (waitingOut [4, 1] 1) = .ok 1 := ⟨rfl, rfl, rfl, rfl, rfl, rfl, rfl⟩
theorem witness_GrowthAppendsZeroCells :
    (boot [99]).Inv ∧ (boot [99]).status = .running ∧ (boot [99]).started = false ∧
    (boot [99]).len ≤ (boot [99]).params.memMax ∧ (boot [99]).len ≤ 1 ∧
    1 ≤ (boot [99]).params.memMax := 
  ⟨boot_halt_inv, by decide⟩
theorem witness_GrowthComposes :
    (boot [99]).status = .running ∧ (boot [99]).started = false ∧
    (boot [99]).len ≤ (boot [99]).params.memMax ∧ (boot [99]).len ≤ 1 ∧
    1 < (boot [99]).params.memMax := by decide
theorem witness_GrowthBelowSizeFaults :
    (boot [99]).status = .running ∧ (boot [99]).started = false ∧ 0 < (boot [99]).len := by decide
theorem witness_GrowthRefusedOutsideItsWindow :
    haltedEngine.status ≠ .running ∧ (midRun [99] 0 0).started = true ∧
    ((boot [99]).status = .running ∧ (boot [99]).started = false ∧
      (boot [99]).len ≤ (boot [99]).params.memMax ∧
      ((boot [99]).params.memMax : Int) < 9223372036854775804) := by decide
theorem witness_ResetLoadsImage :
    ([-9223372036854775808, 9223372036854775807] : List Int).length ≤ haltedEngine.params.memMax ∧
    ∀ v ∈ ([-9223372036854775808, 9223372036854775807] : List Int), inRange haltedEngine.params.width v = true := by decide
theorem witness_ResetForgets :
    haltedEngine.params = (boot [1, 2]).params ∧ haltedEngine.inbox = (boot [1, 2]).inbox := by decide
theorem witness_StepKeepsInvariant :
    (boot [99]).Inv ∧ ∃ t, step (boot [99]) = .next t := ⟨boot_halt_inv, _, rfl⟩
theorem witness_ParametersNeverChange :
    ∃ t, repeatStep step 2 (boot [99]) = .next t := ⟨_, rfl⟩
theorem witness_ScriptedEqualsQueueHandler :
    (∃ e, runScripted 2 ⟨boot [3, 0, 99], [5], []⟩ = .next e) ∧
    ∀ k, k < 2 → ∀ e', runScripted k ⟨boot [3, 0, 99], [5], []⟩ = .next e' →
      ¬ (e'.engine.status = .suspendedForInput ∧ e'.queue = []) := by
  refine ⟨⟨_, rfl⟩, fun k hk e' h => ?_⟩
  match k, hk with
  | 0, _ => cases h; decide
  | 1, _ => cases h; decide
theorem witness_ScriptedQueuesAreOrdered :
    ∃ e, runScripted 2 ⟨boot [3, 0, 99], [5], []⟩ = .next e := ⟨_, rfl⟩
theorem witness_ScriptedRunsAlwaysGoOn :
    (boot [99]).Inv ∧ ∀ x ∈ ([-9223372036854775808, 9223372036854775807] : List Int),
      inRange (boot [99]).params.width x = true := 
  ⟨boot_halt_inv, by decide⟩
theorem witness_NextOutputOutcomes :
    (∃ e, nextOutput takeQueue 2 ⟨boot [3, 0, 104, 7], [5, 6]⟩ = .next (.unfinished, e)) ∧
    (∃ e, nextOutput takeQueue 3 ⟨boot [3, 0, 104, 7], [5, 6]⟩ = .next (.some 7, e) ∧ e.supply = [6]) ∧
    (∃ e, nextOutput takeQueue 2 ⟨boot [99], []⟩ = .next (.none, e)) ∧
    (∃ e, nextOutput takeQueue 2 ⟨boot [3, 1], []⟩ = .next (.failed .inputExhausted 0 1, e)) ∧
    (waitingOut [4, 1] 1).status = .suspendedForOutput := 
  ⟨⟨_, rfl⟩, ⟨_, rfl, rfl⟩, ⟨_, rfl⟩, ⟨_, rfl⟩, rfl⟩
theorem witness_EnginesAreIndependent :
    ∃ a b, (0 : Nat) ≠ 1 ∧ stepAt 0 [boot [99], boot [109, 1]] = .next a ∧ stepAt 1 a = .next b := 
  ⟨_, _, by decide, rfl, rfl⟩
/-- A ring of two engines: the first reads twice and writes, the second halts. -/
def ring2 : Ring := startRing [(boot [3, 0, 3, 1, 4, 1], 9), (boot [99], 8)] 3
/-- The same engine on a later pass. -/
def ringLater : Ring := ⟨[⟨boot [3, 1, 4, 1], 9, false⟩], 3, 0⟩
theorem witness_RingPassThreadsTheSignal :
    (∃ m e, ring2.members[ring2.next]? = some m ∧ m.first = true ∧
      nextOutput takeQueue 9 ⟨m.engine, [m.phase, ring2.signal]⟩ = .next (.some 3, e)) ∧
    (∃ m e, ringLater.members[ringLater.next]? = some m ∧ m.first = false ∧
      nextOutput takeQueue 9 ⟨m.engine, [ringLater.signal]⟩ = .next (.some 3, e)) ∧
    (∃ m e, (startRing [(boot [99], 8)] 3).members[0]? = some m ∧
      nextOutput takeQueue 9 ⟨m.engine, [m.phase, 3]⟩ = .next (.none, e)) ∧
    (∃ m e, (startRing [(boot [0], 8)] 3).members[0]? = some m ∧
      nextOutput takeQueue 9 ⟨m.engine, [m.phase, 3]⟩ = .next (.failed .malformedOpcode 0 0, e)) := 
  ⟨⟨_, _, rfl, rfl, rfl⟩, ⟨_, _, rfl, rfl, rfl⟩, ⟨_, _, rfl, rfl⟩, _, _, rfl, rfl⟩

end Sys2Proof.Tests
end

section
/-! PROOFS. The statements about growth (spec/20_memory.md R60 to R65): when the host may ask for it, and
the three answers it then gets. -/

namespace Sys2Proof.Machine

/-! ### The growth request -/

theorem beforeRun_iff {s : State} :
    beforeRun s = true ↔ s.status = .running ∧ s.started = false := by
  simp [beforeRun]

/-- Before the run a growth request is carried out (spec/20_memory.md R63). -/
theorem hostMove_grow_beforeRun {s : State} (hr : s.status = .running) (hs : s.started = false)
    (n : Int) : hostMove (.grow n) s = growTo n s :=
  if_pos (beforeRun_iff.2 ⟨hr, hs⟩)

/-- Once the run has begun, or the engine is not Running, a growth request is refused. -/
theorem hostMove_grow_notBeforeRun {s : State} (h : s.status ≠ .running ∨ s.started = true) (n : Int) :
    hostMove (.grow n) s = .refused .growNotBeforeRun := by
  have hb : ¬ beforeRun s = true := by
    rw [beforeRun_iff]
    rintro ⟨hr, hs⟩
    rcases h with h | h
    · exact h hr
    · simp [hs] at h
  exact if_neg hb

theorem growTo_below {s : State} {n : Int} (h : n < s.len) :
    growTo n s = .next (takeFault ⟨.growthBelowSize, n⟩ s) :=
  if_pos h

theorem growTo_beyond {s : State} {n : Int} (hl : s.len ≤ s.params.memMax)
    (h : (s.params.memMax : Int) < n) : growTo n s = .refused .growBeyondMax := by
  have hlow : ¬ n < s.len := by omega
  rw [growTo, if_neg hlow, if_pos h]

theorem growTo_within {s : State} {n : Nat} (hl : s.len ≤ n) (hm : n ≤ s.params.memMax) :
    growTo n s = .next { s with len := n } := by
  have hlow : ¬ (n : Int) < s.len := by omega
  have hhigh : ¬ (n : Int) > s.params.memMax := by omega
  rw [growTo, if_neg hlow, if_neg hhigh, Int.toNat_natCast]

/-- Before the run, a request from the current size up to `MEM_MAX` sets the length (R60). -/
theorem hostMove_grow_within {s : State} {n : Nat} (hr : s.status = .running) (hs : s.started = false)
    (hl : s.len ≤ n) (hm : n ≤ s.params.memMax) :
    hostMove (.grow n) s = .next { s with len := n } := by
  rw [hostMove_grow_beforeRun hr hs, growTo_within hl hm]

/-! ### The statements -/

/-- Settles O45: growth changes `len` only, and the invariant lists no cell at or beyond the old `len`,
so the new cells read 0. -/
theorem growthAppendsZeroCells : Obligations.GrowthAppendsZeroCells := by
  intro s n hinv hr hs hl hm
  refine ⟨{ s with len := n }, hostMove_grow_within hr hs hl hm, rfl, ?_, fun _ _ => rfl⟩
  exact fun a ha _ => Memory.get_beyond hinv.cells ha

/-- Settles O46: growth overwrites `len`, so the second request leaves nothing of the first. -/
theorem growthComposes : Obligations.GrowthComposes := by
  intro s n1 n2 hr hs hl
  refine ⟨hostMove_grow_within hr hs le_rfl hl, fun h1 h12 h2 => ?_⟩
  refine ⟨{ s with len := n1 }, hostMove_grow_within hr hs h1 (by omega), ?_⟩
  calc hostMove (.grow n2) { s with len := n1 }
      = .next { s with len := n2 } := hostMove_grow_within hr hs h12.le h2
    _ = hostMove (.grow n2) s := (hostMove_grow_within hr hs (by omega) h2).symm

/-- Settles O47: before the run the request reaches `growTo`, whose answer below `len` is fault entry. -/
theorem growthBelowSizeFaults : Obligations.GrowthBelowSizeFaults := by
  intro s n hr hs hn
  rw [hostMove_grow_beforeRun hr hs, growTo_below (Int.ofNat_lt.2 hn)]
  rfl

/-- Settles O48, one refusal for each of the two premises. -/
theorem growthRefusedOutsideItsWindow : Obligations.GrowthRefusedOutsideItsWindow := by
  intro s n
  refine ⟨fun h => hostMove_grow_notBeforeRun h n, fun hr hs hl hn => ?_⟩
  rw [hostMove_grow_beforeRun hr hs, growTo_beyond hl hn]

end Sys2Proof.Machine
end

section
/-! PROOFS. The statements about rejected words (spec/30_encoding.md R90 to R93): what a word's digits make
the decoder raise, that a step raises it, and what `ignore` reads of a word. -/

namespace Sys2Proof

/-! ### The digits below a place -/

theorem digit_mod_pow (w : Nat) {i m : Nat} (h : i < m) : digit (w % 10 ^ m) i = digit w i := by
  obtain ⟨d, rfl⟩ := Nat.exists_eq_add_of_lt h
  rw [digit, digit, Nat.add_assoc, Nat.pow_add, Nat.mod_mul_right_div_self,
    Nat.mod_mod_of_dvd _ (Dvd.intro_left (10 ^ d) (Nat.pow_succ ..).symm)]

/-- The operation code lies below the first place that the operation does not read. -/
theorem opcode_mod_pow (w n : Nat) : w % 10 ^ (n + 2) % 100 = w % 100 :=
  Nat.mod_mod_of_dvd w (pow_dvd_pow 10 (Nat.le_add_left 2 n))

/-! ### `ignore` reads the word without its reserved digits (spec/30_encoding.md R92) -/

theorem checkReserved_ignore (n w : Nat) (i : Instr) :
    checkReserved .ignore n w i = checkReserved .fault n (w % 10 ^ (n + 2)) i := by
  have hz : w % 10 ^ (n + 2) / 10 ^ (n + 2) = 0 := Nat.div_eq_of_lt (Nat.mod_lt _ (by positivity))
  exact (if_pos hz).symm

theorem decode1_ignore (w : Nat) (mk : Mode → Instr) :
    decode1 .ignore w mk = decode1 .fault (w % 10 ^ (1 + 2)) mk := by
  rw [decode1, decode1, digit_mod_pow w (by decide)]
  simp only [checkReserved_ignore]

theorem decode2_ignore (w : Nat) (mk : Mode → Mode → Instr) :
    decode2 .ignore w mk = decode2 .fault (w % 10 ^ (2 + 2)) mk := by
  rw [decode2, decode2, digit_mod_pow w (by decide), digit_mod_pow w (by decide)]
  simp only [checkReserved_ignore]

theorem decode3_ignore (w : Nat) (mk : Mode → Mode → Mode → Instr) :
    decode3 .ignore w mk = decode3 .fault (w % 10 ^ (3 + 2)) mk := by
  rw [decode3, decode3, digit_mod_pow w (by decide), digit_mod_pow w (by decide),
    digit_mod_pow w (by decide)]
  simp only [checkReserved_ignore]

theorem decodeNat_ignore {w n : Nat} (hn : Machine.operandCount (w % 100) = some n) :
    decodeNat .ignore w = decodeNat .fault (w % 10 ^ (n + 2)) := by
  unfold decodeNat
  rw [opcode_mod_pow]
  generalize w % 100 = op at hn
  split
  case h_11 => simp_all [Machine.operandCount]
  all_goals cases hn
  · exact decode3_ignore w .add
  · exact decode3_ignore w .mul
  · exact decode1_ignore w .inp
  · exact decode1_ignore w .out
  · exact decode2_ignore w .jt
  · exact decode2_ignore w .jf
  · exact decode3_ignore w .lt
  · exact decode3_ignore w .eq
  · exact decode1_ignore w .arb
  · exact checkReserved_ignore 0 w .halt

theorem decode_ignore {w n : Nat} (hn : Machine.operandCount (w % 100) = some n) :
    decode .ignore (w : Int) = decode .fault ((w % 10 ^ (n + 2) : Nat) : Int) := by
  rw [decode_nat, decode_nat, decodeNat_ignore hn]

namespace Machine

/-! ### What the decode checks raise -/

/-- Checks that all raise the same, one of which fails, raise it. -/
theorem firstFailure_of_uniform {l : List Check} {c : Cause} {v : Int} (hl : ∀ b ∈ l, b.2 = (c, v))
    (hbad : ∃ b ∈ l, b.1 = true) : firstFailure l = some ⟨c, v⟩ := by
  induction l with
  | nil => simp at hbad
  | cons b l ih =>
    obtain ⟨bad, c', v'⟩ := b
    obtain ⟨rfl, rfl⟩ : c' = c ∧ v' = v := by simpa using hl _ List.mem_cons_self
    cases bad with
    | true => rfl
    | false => exact ih (fun b hb => hl b (List.mem_cons_of_mem _ hb)) (by simpa using hbad)

/-- A negative word, or one whose operation code is outside the fixed set (spec/30_encoding.md R90, R93). -/
theorem firstFailure_decodeChecks_malformedOpcode {s : State}
    (h : s.mem.get s.pc < 0 ∨ operandCount ((s.mem.get s.pc).toNat % 100) = none) :
    firstFailure (decodeChecks s) = some ⟨.malformedOpcode, s.mem.get s.pc⟩ := by
  by_cases hneg : s.mem.get s.pc < 0
  · simp [decodeChecks, firstFailure, hneg]
  · simp [decodeChecks, firstFailure, hneg, h.resolve_left hneg]

/-- A used mode digit above 2, or under `fault` a reserved digit that is not 0 (spec/30_encoding.md R91,
R92): every check after the operation code's raises the same. -/
theorem firstFailure_decodeChecks_illegalMode {s : State} {n : Nat} (h0 : 0 ≤ s.mem.get s.pc)
    (hn : operandCount ((s.mem.get s.pc).toNat % 100) = some n)
    (hbad : (∃ k < n, 2 < digit (s.mem.get s.pc).toNat (k + 2)) ∨
      (s.params.reserved = .fault ∧ (s.mem.get s.pc).toNat / 10 ^ (n + 2) ≠ 0)) :
    firstFailure (decodeChecks s) = some ⟨.illegalMode, s.mem.get s.pc⟩ := by
  have hneg : ¬ s.mem.get s.pc < 0 := by omega
  simp only [decodeChecks, hn, hneg, decide_false, firstFailure, Bool.false_eq_true, if_false]
  apply firstFailure_of_uniform
  · simp only [List.mem_append, List.mem_map, List.mem_singleton]
    rintro b (⟨k, -, rfl⟩ | rfl) <;> rfl
  · rcases hbad with ⟨k, hk, hd⟩ | ⟨hrd, hz⟩
    · exact ⟨_, List.mem_append_left _ (List.mem_map_of_mem (List.mem_range.2 hk)), decide_eq_true hd⟩
    · refine ⟨_, List.mem_append_right _ (List.mem_singleton_self _), ?_⟩
      rw [decide_eq_true hrd, decide_eq_true hz, Bool.and_self]

/-! ### The decoder and the step raise it -/

theorem raisedBy_eq_some {w : Int} {d : Except Reject Instr} {r : Raise} (h : raisedBy w d = some r) :
    ∃ e, d = .error e ∧ r = ⟨causeOf e, w⟩ := by
  cases d with
  | ok i => cases h
  | error e => exact ⟨e, rfl, (Option.some.inj h).symm⟩

/-- A step of a Running engine whose word is rejected is fault entry with the word
(spec/40_decode_resolve_loop.md R112, R113). -/
theorem step_of_decode_error {s : State} {e : Reject} (hr : s.status = .running)
    (hi : hostIdle s = true) (hl : s.pc < s.len)
    (hd : decode s.params.reserved (s.mem.get s.pc) = .error e) :
    step s = .next (faultedAt { s with started := true } ⟨causeOf e, s.mem.get s.pc⟩) := by
  rw [step_running hr hi]
  obtain ⟨t, ht⟩ := runStep_next (begin s)
  rcases runStep_inv ht with ⟨hge, -⟩ | ⟨-, e', hd', rfl⟩ | ⟨-, i, hd', -⟩
  · exact absurd hl (Nat.not_lt.2 hge)
  · cases hd.symm.trans hd'
    exact ht
  · cases hd.symm.trans hd'

/-- The same, from the check of decode that fails first. -/
theorem step_of_decodeChecks_fail {s : State} {r : Raise} (hr : s.status = .running)
    (hi : hostIdle s = true) (hl : s.pc < s.len) (h : firstFailure (decodeChecks s) = some r) :
    step s = .next (faultedAt { s with started := true } r) := by
  rw [firstFailure_decodeChecks] at h
  obtain ⟨e, hd, rfl⟩ := raisedBy_eq_some h
  exact step_of_decode_error hr hi hl hd

/-- Under `fault` a reserved digit that is not 0 rejects the word (spec/30_encoding.md R92): the checks
of decode in a state that fetches it, read back as the decoder's answer. -/
theorem decode_fault_reserved {w n : Nat} (hn : operandCount (w % 100) = some n)
    (hz : w / 10 ^ (n + 2) ≠ 0) : decode .fault (w : Int) = .error .illegalMode := by
  have hf := firstFailure_decodeChecks_illegalMode (s := { State.reset with mem := [(0, (w : Int))] })
    (Int.natCast_nonneg w) hn (.inr ⟨rfl, hz⟩)
  rw [firstFailure_decodeChecks] at hf
  obtain ⟨e, hd, he⟩ := raisedBy_eq_some hf
  cases e with
  | malformedOpcode => cases he
  | illegalMode => exact hd

/-- The fixed set of operation codes (spec/30_encoding.md R88). -/
theorem operandCount_eq_none {op : Nat} :
    operandCount op = none ↔ op ∉ [1, 2, 3, 4, 5, 6, 7, 8, 9, 99] := by
  simp only [operandCount, List.mem_cons, List.not_mem_nil, or_false]
  split_ifs <;> simp <;> omega

/-! ### The statements -/

/-- Settles O5: under `fault` the check of the digits above fails; under `ignore` the decoder reads the
word without them, which has none left to check. -/
theorem reservedDigitRule : Obligations.ReservedDigitRule := by
  intro w n hn
  have hstrip := decode_ignore hn
  have hclean := decode_ignore (w := w % 10 ^ (n + 2)) (n := n) (by rw [opcode_mod_pow, hn])
  rw [Nat.mod_mod] at hclean
  refine ⟨fun hz => ?_, hstrip.trans hclean.symm, hclean⟩
  have hd := decode_fault_reserved hn hz
  refine ⟨hd, fun s hr hi hrd hl hw => ?_⟩
  rw [← hw] at hd ⊢
  exact step_of_decode_error hr hi hl (hrd ▸ hd)

/-- Settles O6: of a word that is not negative, the value mod 100 is the operation code. -/
theorem unrecognisedWordFaults : Obligations.UnrecognisedWordFaults := by
  intro s hr hi hl hbad
  refine step_of_decodeChecks_fail hr hi hl (firstFailure_decodeChecks_malformedOpcode ?_)
  refine or_iff_not_imp_left.2 fun hneg => operandCount_eq_none.2 ?_
  have hbad := hbad.resolve_left hneg
  simp only [List.mem_cons, List.not_mem_nil, or_false] at hbad ⊢
  omega

/-- Settles O7: slot `k` is digit `k + 1`. -/
theorem usedModeDigitAboveTwoFaults : Obligations.UsedModeDigitAboveTwoFaults := by
  intro s n k hr hi hl h0 hn hk hkn hd
  obtain ⟨j, rfl⟩ := Nat.exists_eq_add_of_le' hk
  exact step_of_decodeChecks_fail hr hi hl
    (firstFailure_decodeChecks_illegalMode h0 hn (.inl ⟨j, hkn, hd⟩))

end Machine

end Sys2Proof
end

section
/-! PROOFS. The statements about the resolver (spec/40_decode_resolve_loop.md R116 to R121): what each mode
answers once the literal cell exists, the exact Relative sum, and the worked resolutions. -/

namespace Sys2Proof.Machine

section Slot
variable {s : State} {m : Mode} {k : Nat} {a : Int}

/-! ### A slot that names an address (Position, Relative) -/

/-- The value of the cell that the slot names (spec/40_decode_resolve_loop.md R116). -/
theorem readValue_of_valid (hl : s.pc + k < s.len) (ha : slotAddress s m k = some a)
    (hv : valid s a = true) : readValue s m k = .ok (s.mem.get a.toNat) := by
  have hread : readable s m k = true := by simp [readable, valid_lit.2 hl, ha, hv]
  rw [readValue_ok hread, operand, ha]

/-- The indirect read of an address that is no index (spec/40_decode_resolve_loop.md R117). -/
theorem readValue_of_not_valid (hl : s.pc + k < s.len) (ha : slotAddress s m k = some a)
    (hv : valid s a = false) : readValue s m k = .error ⟨.outOfBounds, a⟩ :=
  readValue_error (by simp [sourceChecks, literalCheck, firstFailure, valid_lit.2 hl, ha, hv])

/-- The address that the slot names (spec/40_decode_resolve_loop.md R118). -/
theorem readAddress_of_valid (hl : s.pc + k < s.len) (ha : slotAddress s m k = some a)
    (hv : valid s a = true) : readAddress s m k = .ok a.toNat := by
  have hwrite : writable s m k = true := by simp [writable, valid_lit.2 hl, ha, hv]
  rw [readAddress_ok hwrite, target, ha]

/-- A write address that is no index (spec/40_decode_resolve_loop.md R118). -/
theorem readAddress_of_not_valid (hl : s.pc + k < s.len) (ha : slotAddress s m k = some a)
    (hv : valid s a = false) : readAddress s m k = .error ⟨.outOfBounds, a⟩ :=
  readAddress_error (by simp [destinationChecks, literalCheck, firstFailure, valid_lit.2 hl, ha, hv])

/-! ### An Immediate slot -/

/-- An Immediate source is its literal (spec/40_decode_resolve_loop.md R116). -/
theorem readValue_immediate (hl : s.pc + k < s.len) :
    readValue s .immediate k = .ok (literal s k) :=
  readValue_ok (by simp [readable, valid_lit.2 hl, slotAddress])

/-- An Immediate destination raises the instruction word (spec/40_decode_resolve_loop.md R119). -/
theorem readAddress_immediate (hl : s.pc + k < s.len) :
    readAddress s .immediate k = .error ⟨.illegalMode, s.mem.get s.pc⟩ :=
  readAddress_error (by simp [destinationChecks, literalCheck, firstFailure, valid_lit.2 hl, slotAddress])

/-! ### Indices and the cell range -/

/-- Every index is a cell value: `len` is at most `MEM_MAX`, which lies below `INT_MAX`
(spec/00_scope.md R7; spec/10_state.md R31). -/
theorem inRange_of_valid (hinv : s.Inv) (hv : valid s a = true) : inRange s.params.width a = true := by
  obtain ⟨h0, hlt⟩ := valid_iff.1 hv
  have hlen := hinv.length
  have hmax : (s.params.memMax : Int) ≤ intMax s.params.width - 4 := by
    have hp := hinv.params
    simp only [paramsOk, Bool.and_eq_true, decide_eq_true_eq] at hp
    exact hp.2
  have hmin := (inRange_iff.1 (inRange_zero s.params.width)).1
  exact inRange_iff.2 ⟨by omega, by omega⟩

end Slot

/-! ### The statements -/

/-- Settles O10: an index would be a cell value, so the sum is no index, and both calls raise it as it is. -/
theorem relativeSumNeverWraps : Obligations.RelativeSumNeverWraps := by
  intro s k hinv hl hr
  have hv : valid s (s.rb + literal s k) = false := by
    rw [← Bool.not_eq_true]
    intro hv
    simp [inRange_of_valid hinv hv] at hr
  exact ⟨readValue_of_not_valid hl rfl hv, readAddress_of_not_valid hl rfl hv⟩

/-- Settles O9: the three literals are 7, -3 and 60, and an index lies from 0 to 99. -/
theorem workedResolutions : Obligations.WorkedResolutions := by
  intro s hpc hrb hlen h11 h12 h13 h7 h47
  have hl1 : s.pc + 1 < s.len := by omega
  have hl2 : s.pc + 2 < s.len := by omega
  have hl3 : s.pc + 3 < s.len := by omega
  have hlit1 : literal s 1 = 7 := by rw [literal, hpc, h11]
  have hlit2 : literal s 2 = -3 := by rw [literal, hpc, h12]
  have hlit3 : literal s 3 = 60 := by rw [literal, hpc, h13]
  have hvalid : ∀ a, valid s a = decide (0 ≤ a ∧ a < 100) := by simp [valid, hlen]
  have hpos1 : slotAddress s .position 1 = some 7 := by rw [slotAddress, hlit1]
  have hrel1 : slotAddress s .relative 1 = some 57 := by rw [slotAddress, hlit1, hrb]; rfl
  have hpos2 : slotAddress s .position 2 = some (-3) := by rw [slotAddress, hlit2]
  have hrel2 : slotAddress s .relative 2 = some 47 := by rw [slotAddress, hlit2, hrb]; rfl
  have hpos3 : slotAddress s .position 3 = some 60 := by rw [slotAddress, hlit3]
  have hrel3 : slotAddress s .relative 3 = some 110 := by rw [slotAddress, hlit3, hrb]; rfl
  refine ⟨?_, ?_, ?_, ?_, ?_, ?_, ?_, ?_, ?_⟩
  · exact (readValue_of_valid hl1 hpos1 (hvalid 7)).trans (congrArg Except.ok h7)
  · rw [readValue_immediate hl1, hlit1]
  · exact readValue_of_valid hl1 hrel1 (hvalid 57)
  · rw [readValue_immediate hl2, hlit2]
  · exact readValue_of_not_valid hl2 hpos2 (hvalid (-3))
  · exact (readValue_of_valid hl2 hrel2 (hvalid 47)).trans (congrArg Except.ok h47)
  · exact readAddress_of_valid hl3 hpos3 (hvalid 60)
  · exact readAddress_of_not_valid hl3 hrel3 (hvalid 110)
  · rw [readAddress_immediate hl3, hpc]

end Sys2Proof.Machine
end

section
/-! PROOFS. The statements about ADD and MUL (spec/41_add_mul.md R140 to R142), from what every instruction
with three slots has in common: its word, its checks, and the two things an instruction can answer. -/

namespace Sys2Proof

/-! ### The word of an instruction with three slots (spec/30_encoding.md R83) -/

/-- The three mode digits stand in places 2 to 4 and nothing stands above them. -/
theorem decode3_word (rd : ReservedDigits) {op : Nat} (hop : op < 100) (mk : Mode → Mode → Mode → Instr)
    (m1 m2 m3 : Mode) :
    decode3 rd (op + 100 * modeDigit m1 + 1000 * modeDigit m2 + 10000 * modeDigit m3) mk
      = .ok (mk m1 m2 m3) := by
  have h1 := modeDigit_lt m1
  have h2 := modeDigit_lt m2
  have h3 := modeDigit_lt m3
  refine decode3_ok.2 ⟨m1, m2, m3, ?_, ?_, ?_, rfl, fun _ => ?_⟩
  · rw [digit]; omega
  · rw [digit]; omega
  · rw [digit]; omega
  · omega

theorem decodeNat_add (rd : ReservedDigits) {w : Nat} (h : w % 100 = 1) :
    decodeNat rd w = decode3 rd w .add := by
  simp only [decodeNat, h]

theorem decodeNat_mul (rd : ReservedDigits) {w : Nat} (h : w % 100 = 2) :
    decodeNat rd w = decode3 rd w .mul := by
  simp only [decodeNat, h]

/-- The word of an operation code that selects `decode3` decodes to the operation with the three modes:
the mode digits leave the operation code as it is. -/
theorem decode_word3 {rd : ReservedDigits} {op : Nat} {mk : Mode → Mode → Mode → Instr} (hop : op < 100)
    (hmk : ∀ {w : Nat}, w % 100 = op → decodeNat rd w = decode3 rd w mk) (m1 m2 m3 : Mode) :
    decode rd ((op + 100 * modeDigit m1 + 1000 * modeDigit m2 + 10000 * modeDigit m3 : Nat) : Int)
      = .ok (mk m1 m2 m3) := by
  rw [decode_nat, hmk (by omega)]
  exact decode3_word rd hop mk m1 m2 m3

namespace Machine

/-! ### What an instruction answers -/

/-- Every check passes: the effect. -/
theorem exec_of_no_failure {i : Instr} {s : State} (h : firstFailure (checksOf i s) = none) :
    exec i s = .next (effectOf i s) := by
  rw [exec_eq, h]

/-- The first failing check ends the instruction in its fault (spec/60_exceptions.md R219). -/
theorem exec_of_failure {i : Instr} {s : State} {r : Raise} (h : firstFailure (checksOf i s) = some r) :
    exec i s = .next (faultedAt s r) := by
  rw [exec_eq, h]

section ThreeSlots
variable {s : State} {m1 m2 m3 : Mode}

/-- The checks of two sources and a destination pass when the three slots resolve. -/
theorem firstFailure_slots_none (h1 : readable s m1 1 = true) (h2 : readable s m2 2 = true)
    (h3 : writable s m3 3 = true) :
    firstFailure (sourceChecks s m1 1 ++ sourceChecks s m2 2 ++ destinationChecks s m3 3) = none :=
  firstFailure_append_none.2
    ⟨firstFailure_append_none.2 ⟨source_none.2 h1, source_none.2 h2⟩, destination_none.2 h3⟩

/-- The same with the range check of a result that fits a cell (spec/41_add_mul.md R142). -/
theorem firstFailure_slots_overflow_none {v : Int} (h1 : readable s m1 1 = true)
    (h2 : readable s m2 2 = true) (h3 : writable s m3 3 = true)
    (hv : inRange s.params.width v = true) :
    firstFailure (sourceChecks s m1 1 ++ sourceChecks s m2 2 ++ destinationChecks s m3 3 ++
      [overflowCheck s v]) = none :=
  firstFailure_append_none.2 ⟨firstFailure_slots_none h1 h2 h3, firstFailure_overflow_none.2 hv⟩

end ThreeSlots

/-! ### The statements -/

/-- Settles O11: the word's digits name the three modes, and `exec` answers the effect when the slots
resolve and the sum fits a cell, else the fault of the first failing check. -/
theorem addRule : Obligations.AddRule := by
  intro s m1 m2 m3
  exact ⟨fun rd => decode_word3 (by decide) (decodeNat_add rd) m1 m2 m3, rfl,
    fun h1 h2 h3 hv => exec_of_no_failure (firstFailure_slots_overflow_none h1 h2 h3 hv),
    fun _ => exec_of_failure⟩

/-- Settles O12: as for ADD, with the product. -/
theorem mulRule : Obligations.MulRule := by
  intro s m1 m2 m3
  exact ⟨fun rd => decode_word3 (by decide) (decodeNat_mul rd) m1 m2 m3, rfl,
    fun h1 h2 h3 hv => exec_of_no_failure (firstFailure_slots_overflow_none h1 h2 h3 hv),
    fun _ => exec_of_failure⟩

end Machine

end Sys2Proof
end

section
/-! PROOFS. The statements about input and output (spec/42_input_output.md R150 to R170): the engine's halves
of IN and OUT, what the host's replies complete, and the two calling conventions. -/

namespace Sys2Proof

/-! ### The word of an instruction with one slot (spec/30_encoding.md R83) -/

/-- The mode digit stands in place 2 and nothing stands above it. -/
theorem decode1_word (rd : ReservedDigits) {op : Nat} (hop : op < 100) (mk : Mode → Instr) (m1 : Mode) :
    decode1 rd (op + 100 * modeDigit m1) mk = .ok (mk m1) := by
  have h1 := modeDigit_lt m1
  refine decode1_ok.2 ⟨m1, ?_, rfl, fun _ => ?_⟩
  · rw [digit]; omega
  · omega

theorem decodeNat_inp (rd : ReservedDigits) {w : Nat} (h : w % 100 = 3) :
    decodeNat rd w = decode1 rd w .inp := by
  simp only [decodeNat, h]

theorem decodeNat_out (rd : ReservedDigits) {w : Nat} (h : w % 100 = 4) :
    decodeNat rd w = decode1 rd w .out := by
  simp only [decodeNat, h]

/-- The word of an operation code that selects `decode1` decodes to the operation with the mode: the mode
digit leaves the operation code as it is. -/
theorem decode_word1 {rd : ReservedDigits} {op : Nat} {mk : Mode → Instr} (hop : op < 100)
    (hmk : ∀ {w : Nat}, w % 100 = op → decodeNat rd w = decode1 rd w mk) (m1 : Mode) :
    decode rd ((op + 100 * modeDigit m1 : Nat) : Int) = .ok (mk m1) := by
  rw [decode_nat, hmk (by omega)]
  exact decode1_word rd hop mk m1

namespace Machine

/-! ### What the host sees (spec/10_state.md R34) -/

@[simp] theorem faultedAt_event (s : State) (r : Raise) : (faultedAt s r).event = none := rfl

@[simp] theorem effectOf_inp_event (m1 : Mode) (s : State) :
    (effectOf (.inp m1) s).event = some .read := rfl

@[simp] theorem effectOf_out_event (m1 : Mode) (s : State) :
    (effectOf (.out m1) s).event = some (.write (operand s m1 1)) := rfl

/-! ### The host's replies (spec/42_input_output.md R154 to R159) -/

section Replies
variable {s : State} {x : Int}

/-- `Value(x)` in range, with the latch an index: the store, the cursor's advance, and Running again. -/
theorem replyValue_inRange (hs : s.status = .suspendedForInput) (ha : s.ioAddr < s.len)
    (hx : inRange s.params.width x = true) :
    replyValue x s =
      .next { s with mem := s.mem.set s.ioAddr x, pc := s.pc + 2, status := .running } := by
  rw [replyValue, if_pos hs, if_pos hx, storeInput_eq, if_pos ha]
  rfl

theorem replyValue_outOfRange (hs : s.status = .suspendedForInput)
    (hx : inRange s.params.width x = false) : replyValue x s = .refused .valueOutOfRange := by
  rw [replyValue, if_pos hs, if_neg (Bool.eq_false_iff.1 hx)]

theorem replyExhausted_suspended (hs : s.status = .suspendedForInput) :
    replyExhausted s = .next (faultedAt s ⟨.inputExhausted, s.ioAddr⟩) :=
  if_pos hs

theorem replyAck_suspended (hs : s.status = .suspendedForOutput) :
    replyAck s = .next (outputTaken s) :=
  if_pos hs

/-- An image with an integer outside the cell range is refused (spec/42_input_output.md R159). -/
theorem bootImage_outOfRange {p : List Int} (hp : p.length ≤ s.params.memMax) (hm : x ∈ p)
    (hx : inRange s.params.width x = false) : bootImage p s = .refused .imageOutOfRange := by
  have hall : ¬ p.all (inRange s.params.width) = true := fun h => by
    simp [List.all_eq_true.1 h x hm] at hx
  rw [bootImage, if_neg (Nat.not_lt.2 hp), if_neg hall]

end Replies

/-! ### Repeating a transition -/

/-- A transition that stays where it is stays there for any number of turns. -/
theorem repeatStep_fixed {α : Type} {g : α → Host.Outcome α Fault Refusal} {a : α} (h : g a = .next a)
    (n : Nat) : repeatStep g n a = .next a := by
  induction n with
  | zero => rfl
  | succ n ih => rw [repeatStep_succ n h, ih]

theorem carry_carry {α β γ : Type} (o : Host.Outcome α Fault Refusal) (f : α → β) (g : β → γ) :
    carry (carry o f) g = carry o (fun a => g (f a)) := by
  cases o <;> rfl

/-! ### The two calling conventions (spec/42_input_output.md R163, R166, R169) -/

/-- A scripted run seen as a callback run: the handler closes over the queue and the outputs. -/
def Scripted.driven (r : Scripted) : Driven (List Int × List Int) :=
  ⟨r.engine, (r.queue, r.outputs)⟩

/-- The commuting square of one turn: unless the queue is empty at a Read, the callback convention with the
queue's handler answers what the scripted convention does, refusals included. -/
theorem handlerStep_queueHandler {r : Scripted}
    (h : ¬ (r.engine.status = .suspendedForInput ∧ r.queue = [])) :
    handlerStep queueHandler r.driven = carry (scriptedStep r) Scripted.driven := by
  obtain ⟨s, q, o⟩ := r
  unfold handlerStep scriptedStep
  cases hs : s.status <;> simp only [Scripted.driven, hs]
  case running => rw [carry_carry]; rfl
  case suspendedForInput =>
    cases q with
    | nil => exact absurd ⟨hs, rfl⟩ h
    | cons x q => rw [carry_carry]; rfl
  case suspendedForOutput => rw [carry_carry]; rfl
  case halted => rfl
  case faulted => rfl

/-- The square holds for `n` turns, none of which begins at a Read with the queue empty. -/
theorem runWithHandler_queueHandler {n : Nat} {r e : Scripted} (hrun : runScripted n r = .next e)
    (hq : ∀ k, k < n → ∀ e', runScripted k r = .next e' →
      ¬ (e'.engine.status = .suspendedForInput ∧ e'.queue = [])) :
    runWithHandler queueHandler n r.driven = .next e.driven := by
  induction n generalizing r with
  | zero => cases hrun; rfl
  | succ n ih =>
    obtain ⟨b, hb, hrest⟩ := repeatStep_succ_inv hrun
    have hturn : handlerStep queueHandler r.driven = .next b.driven := by
      rw [handlerStep_queueHandler (hq 0 n.succ_pos r rfl), hb, carry_next]
    have hqb : ∀ k, k < n → ∀ e', runScripted k b = .next e' →
        ¬ (e'.engine.status = .suspendedForInput ∧ e'.queue = []) := fun k hk e' he =>
      hq (k + 1) (Nat.succ_lt_succ hk) e' ((repeatStep_succ k hb).trans he)
    exact (repeatStep_succ n hturn).trans (ih hrest hqb)

/-! ### The statements -/

/-- Settles O15: the effect suspends the engine at a Read, and fault entry leaves no event. -/
theorem inputRule : Obligations.InputRule := by
  intro s m1
  exact ⟨fun rd => decode_word1 (by decide) (decodeNat_inp rd) m1, rfl,
    fun hw => ⟨_, exec_of_no_failure (destination_none.2 hw), rfl, effectOf_inp_event m1 s⟩,
    fun r hr => ⟨exec_of_failure hr, faultedAt_event s r⟩⟩

/-- Settles O16: the effect suspends the engine at a Write of the operand, and fault entry leaves no event. -/
theorem outputRule : Obligations.OutputRule := by
  intro s m1
  exact ⟨fun rd => decode_word1 (by decide) (decodeNat_out rd) m1, rfl,
    fun hr => ⟨_, exec_of_no_failure (source_none.2 hr), rfl, effectOf_out_event m1 s⟩,
    fun r hr => ⟨exec_of_failure hr, faultedAt_event s r⟩⟩

/-- Settles O41: with no move of the host the step is the engine's, which does nothing while suspended. -/
theorem unansweredEngineWaits : Obligations.UnansweredEngineWaits := by
  intro s n hs hi
  have hidle : hostIdle s = true := by rw [hostIdle, hi]
  have hstopped : s.status ≠ .running := by rcases hs with hs | hs <;> simp [hs]
  exact repeatStep_fixed ((step_idle hidle).trans (engineStep_idle hstopped)) n

/-- Settles O55, the square of one turn repeated. -/
theorem scriptedEqualsQueueHandler : Obligations.ScriptedEqualsQueueHandler :=
  fun _ _ _ => runWithHandler_queueHandler

/-- Settles O38: the step is the reply's, which stores or is refused by the range of its value. -/
theorem inputCompletion : Obligations.InputCompletion := by
  refine ⟨fun s x rest hs hi => ?_, fun s p x => bootImage_outOfRange⟩
  rw [step_move hi (by simp [moveIsDue, hs])]
  exact ⟨replyValue_inRange (s := { s with inbox := rest }) hs,
    replyValue_outOfRange (s := { s with inbox := rest }) hs⟩

/-- Settles O39: the step is the reply's, which is fault entry with the latched address. -/
theorem inputExhaustion : Obligations.InputExhaustion := by
  intro s rest hs hi
  rw [step_move hi (by simp [moveIsDue, hs])]
  exact replyExhausted_suspended (s := { s with inbox := rest }) hs

/-- Settles O40: the step is the reply's, which completes the OUT. -/
theorem outputCompletion : Obligations.OutputCompletion := by
  intro s rest hs hi
  rw [step_move hi (by simp [moveIsDue, hs])]
  exact replyAck_suspended (s := { s with inbox := rest }) hs

end Machine

end Sys2Proof
end

section
/-! PROOFS. The statements about JT and JF (spec/43_jumps.md R180 to R183), from what the two jumps have in
common: two source slots and, when the jump is taken, a target that is not negative. -/

namespace Sys2Proof

/-! ### The word of an instruction with two slots (spec/30_encoding.md R83) -/

theorem decodeNat_jt (rd : ReservedDigits) {w : Nat} (h : w % 100 = 5) :
    decodeNat rd w = decode2 rd w .jt := by
  simp only [decodeNat, h]

theorem decodeNat_jf (rd : ReservedDigits) {w : Nat} (h : w % 100 = 6) :
    decodeNat rd w = decode2 rd w .jf := by
  simp only [decodeNat, h]

/-- The word of an operation code that selects `decode2` decodes to the operation with the two modes: their
digits stand in places 2 and 3 and nothing stands above them. -/
theorem decode_word2 {rd : ReservedDigits} {op : Nat} {mk : Mode → Mode → Instr} (hop : op < 100)
    (hmk : ∀ {w : Nat}, w % 100 = op → decodeNat rd w = decode2 rd w mk) (m1 m2 : Mode) :
    decode rd ((op + 100 * modeDigit m1 + 1000 * modeDigit m2 : Nat) : Int) = .ok (mk m1 m2) := by
  have h1 := modeDigit_lt m1
  have h2 := modeDigit_lt m2
  rw [decode_nat, hmk (by omega)]
  refine decode2_ok.2 ⟨m1, m2, ?_, ?_, rfl, fun _ => ?_⟩
  · rw [digit]; omega
  · rw [digit]; omega
  · omega

namespace Machine

/-! ### Whether a jump is taken -/

@[simp] theorem takesJump_jt {m1 m2 : Mode} {s : State} :
    takesJump (.jt m1 m2) s = true ↔ operand s m1 1 ≠ 0 := decide_eq_true_iff

@[simp] theorem takesJump_jf {m1 m2 : Mode} {s : State} :
    takesJump (.jf m1 m2) s = true ↔ operand s m1 1 = 0 := decide_eq_true_iff

/-! ### A source operand that cannot be resolved -/

/-- Its first failing check is the literal cell or the indirect read (spec/20_memory.md R53). -/
theorem firstFailure_source_of_not_readable {s : State} {m : Mode} {k : Nat}
    (h : readable s m k = false) :
    ∃ a : Int, firstFailure (sourceChecks s m k) = some ⟨.outOfBounds, a⟩ ∧ valid s a = false ∧
      (a = s.pc + k ∨ slotAddress s m k = some a) := by
  cases hl : valid s (s.pc + k) with
  | false => exact ⟨s.pc + k, by simp [sourceChecks, literalCheck, firstFailure, hl], hl, .inl rfl⟩
  | true =>
    cases ha : slotAddress s m k with
    | none => simp [readable, hl, ha] at h
    | some a =>
      have hv : valid s a = false := by simpa [readable, hl, ha] using h
      exact ⟨a, by simp [sourceChecks, literalCheck, firstFailure, hl, ha, hv], hv, .inr rfl⟩

/-! ### What both jumps do -/

section Jump
variable {s : State} {m1 m2 : Mode} {i : Instr} (hj : i = .jt m1 m2 ∨ i = .jf m1 m2)
include hj

/-- The sign of the target is checked last, and only when the jump is taken (spec/43_jumps.md R182). -/
theorem checksOf_jump : checksOf i s = sourceChecks s m1 1 ++ sourceChecks s m2 2 ++
    [(takesJump i s && decide (operand s m2 2 < 0), .outOfBounds, operand s m2 2)] := by
  rcases hj with rfl | rfl <;> simp [checksOf, takesJump]

theorem effectOf_jump : effectOf i s =
    { s with pc := if takesJump i s = true then (operand s m2 2).toNat else s.pc + 3 } := by
  rcases hj with rfl | rfl <;> simp [effectOf]

/-- A target slot that cannot be resolved is the first failure, whatever the condition
(spec/43_jumps.md R183). -/
theorem firstFailure_jump_target {r : Raise} (h1 : readable s m1 1 = true)
    (h2 : firstFailure (sourceChecks s m2 2) = some r) : firstFailure (checksOf i s) = some r := by
  rw [checksOf_jump hj]
  exact firstFailure_append_some.2 (.inl (firstFailure_append_some.2 (.inr ⟨source_none.2 h1, h2⟩)))

section Resolved
variable (h1 : readable s m1 1 = true) (h2 : readable s m2 2 = true)
include h1 h2

/-- With both slots resolved, only the sign check of the target is left. -/
theorem firstFailure_jump_resolved : firstFailure (checksOf i s) =
    if takesJump i s = true ∧ operand s m2 2 < 0 then some ⟨.outOfBounds, operand s m2 2⟩ else none := by
  have hslots : firstFailure (sourceChecks s m1 1 ++ sourceChecks s m2 2) = none :=
    firstFailure_append_none.2 ⟨source_none.2 h1, source_none.2 h2⟩
  rw [checksOf_jump hj, firstFailure_append, hslots]
  simp [firstFailure]

theorem exec_jump_taken (ht : takesJump i s = true) (hn : 0 ≤ operand s m2 2) :
    exec i s = .next { s with pc := (operand s m2 2).toNat } := by
  have hf : firstFailure (checksOf i s) = none := by
    rw [firstFailure_jump_resolved hj h1 h2, if_neg fun h => absurd h.2 (Int.not_lt.2 hn)]
  rw [exec_of_no_failure hf, effectOf_jump hj, if_pos ht]

/-- A jump not taken ignores the value of its target (spec/43_jumps.md R182). -/
theorem exec_jump_untaken (ht : ¬ takesJump i s = true) :
    exec i s = .next { s with pc := s.pc + 3 } := by
  have hf : firstFailure (checksOf i s) = none := by
    rw [firstFailure_jump_resolved hj h1 h2, if_neg fun h => ht h.1]
  rw [exec_of_no_failure hf, effectOf_jump hj, if_neg ht]

theorem exec_jump_negative (ht : takesJump i s = true) (hn : operand s m2 2 < 0) :
    exec i s = .next (faultedAt s ⟨.outOfBounds, operand s m2 2⟩) :=
  exec_of_failure (by rw [firstFailure_jump_resolved hj h1 h2, if_pos ⟨ht, hn⟩])

end Resolved

end Jump

/-! ### The step after a jump -/

section Step
variable {s : State} (hr : s.status = .running) (hi : hostIdle s = true)
include hr hi

/-- A step at a word that decodes runs the instruction (spec/40_decode_resolve_loop.md R122). -/
theorem step_of_decode_ok {j : Instr} (hl : s.pc < s.len)
    (hd : decode s.params.reserved (s.mem.get s.pc) = .ok j) :
    step s = exec j { s with started := true } := by
  have hfetch : decodeAt (begin s) = .ok j := by simp [decodeAt, begin, hd]
  rw [step_running hr hi, runStep, if_neg (show ¬ (begin s).len ≤ (begin s).pc from Nat.not_le.2 hl),
    hfetch]
  rfl

/-- A step at or past the end of memory halts without a fetch (spec/46_halt.md R207). -/
theorem step_past_end (hl : s.len ≤ s.pc) :
    step s = .next { s with status := .halted, started := true } := by
  rw [step_running hr hi, runStep, if_pos (show (begin s).len ≤ (begin s).pc from hl)]
  rfl

end Step

/-! ### The statements -/

/-- Settles O17: the jump that is taken when the condition is not 0. -/
theorem jumpIfTrueRule : Obligations.JumpIfTrueRule := by
  intro s m1 m2
  exact ⟨fun rd => decode_word2 (by decide) (decodeNat_jt rd) m1 m2, rfl,
    fun h1 h2 hc => exec_jump_taken (.inl rfl) h1 h2 (takesJump_jt.2 hc),
    fun h1 h2 hc => exec_jump_untaken (.inl rfl) h1 h2 fun ht => takesJump_jt.1 ht hc,
    fun _ => exec_of_failure⟩

/-- Settles O18: as for JT with the test inverted. -/
theorem jumpIfFalseRule : Obligations.JumpIfFalseRule := by
  intro s m1 m2
  exact ⟨fun rd => decode_word2 (by decide) (decodeNat_jf rd) m1 m2, rfl,
    fun h1 h2 hc => exec_jump_taken (.inr rfl) h1 h2 (takesJump_jf.2 hc),
    fun h1 h2 hc => exec_jump_untaken (.inr rfl) h1 h2 fun ht => hc (takesJump_jf.1 ht),
    fun _ => exec_of_failure⟩

/-- Settles O36: the jump itself by its target's sign, and the step that follows by the length. -/
theorem jumpTargetRanges : Obligations.JumpTargetRanges := by
  intro s m1 m2 i h1 h2
  constructor
  · intro h
    have hj : i = .jt m1 m2 ∨ i = .jf m1 m2 := h.imp And.left And.left
    have ht : takesJump i s = true := by rcases h with ⟨rfl, hc⟩ | ⟨rfl, hc⟩ <;> simpa using hc
    refine ⟨exec_jump_taken hj h1 h2 ht, fun hl hr hi j hd hn => ?_, fun hl hr hi => ?_,
      exec_jump_negative hj h1 h2 ht⟩
    · have hpc : (operand s m2 2).toNat < s.len := by omega
      exact step_of_decode_ok (s := { s with pc := (operand s m2 2).toNat }) hr hi hpc hd
    · have hpc : s.len ≤ (operand s m2 2).toNat := by omega
      exact step_past_end (s := { s with pc := (operand s m2 2).toNat }) hr hi hpc
  · intro h
    have hj : i = .jt m1 m2 ∨ i = .jf m1 m2 := h.imp And.left And.left
    have ht : ¬ takesJump i s = true := by rcases h with ⟨rfl, hc⟩ | ⟨rfl, hc⟩ <;> simpa using hc
    exact exec_jump_untaken hj h1 h2 ht

/-- Settles O37: the target slot is checked before the condition is tested. -/
theorem untakenJumpStillResolves : Obligations.UntakenJumpStillResolves := by
  intro s m1 m2 i hj h1 h2
  obtain ⟨a, hf, hv, ha⟩ := firstFailure_source_of_not_readable h2
  exact ⟨a, exec_of_failure (firstFailure_jump_target hj h1 hf), hv, ha⟩

end Machine

end Sys2Proof
end

section
/-! PROOFS. The statements about LT and EQ (spec/44_compare.md R190, R191), from what every instruction with
three slots has in common; a comparison has no check beyond its slots' own. -/

namespace Sys2Proof

/-! ### The operation codes 7 and 8 (spec/30_encoding.md R88) -/

theorem decodeNat_lt (rd : ReservedDigits) {w : Nat} (h : w % 100 = 7) :
    decodeNat rd w = decode3 rd w .lt := by
  simp only [decodeNat, h]

theorem decodeNat_eq (rd : ReservedDigits) {w : Nat} (h : w % 100 = 8) :
    decodeNat rd w = decode3 rd w .eq := by
  simp only [decodeNat, h]

namespace Machine

/-! ### The statements -/

/-- Settles O13: the word's digits name the three modes, and `exec` answers the effect when the slots
resolve, else the fault of the first failing check. -/
theorem lessThanRule : Obligations.LessThanRule := by
  intro s m1 m2 m3
  exact ⟨fun rd => decode_word3 (by decide) (decodeNat_lt rd) m1 m2 m3, rfl,
    fun h1 h2 h3 => exec_of_no_failure (firstFailure_slots_none h1 h2 h3),
    fun _ => exec_of_failure⟩

/-- Settles O14: as for LT, with the test for equality. -/
theorem equalsRule : Obligations.EqualsRule := by
  intro s m1 m2 m3
  exact ⟨fun rd => decode_word3 (by decide) (decodeNat_eq rd) m1 m2 m3, rfl,
    fun h1 h2 h3 => exec_of_no_failure (firstFailure_slots_none h1 h2 h3),
    fun _ => exec_of_failure⟩

end Machine

end Sys2Proof
end

section
/-! PROOFS. The statements about ARB and the relative base (spec/45_adjust_relative_base.md R200 to R202):
what ARB does, and that of every transition only ARB and reset write the base. -/

namespace Sys2Proof

/-! ### The operation code 9 (spec/30_encoding.md R88) -/

theorem decodeNat_arb (rd : ReservedDigits) {w : Nat} (h : w % 100 = 9) :
    decodeNat rd w = decode1 rd w .arb := by
  simp only [decodeNat, h]

namespace Machine

/-! ### The instruction (spec/45_adjust_relative_base.md R200, R201) -/

/-- ARB has no failing check when its slot resolves and the new base fits a cell. -/
theorem firstFailure_arb_none {s : State} {m1 : Mode} (h1 : readable s m1 1 = true)
    (hv : inRange s.params.width (s.rb + operand s m1 1) = true) :
    firstFailure (checksOf (.arb m1) s) = none :=
  firstFailure_append_none.2 ⟨source_none.2 h1, firstFailure_overflow_none.2 hv⟩

/-! ### Who writes the base (spec/45_adjust_relative_base.md R202) -/

/-- Of the ten effects only ARB's writes the base. -/
theorem effectOf_rb (i : Instr) (s : State) : (effectOf i s).rb = s.rb ∨ ∃ m, i = .arb m := by
  cases i with
  | arb m1 => exact .inr ⟨m1, rfl⟩
  | _ => exact .inl rfl

/-- A Running engine's step that changes the base is an ARB's effect, which leaves the status. -/
theorem runStep_begin_rb {u t : State} (h : runStep (begin u) = .next t) (hb : t.rb ≠ u.rb) :
    t.status = u.status ∧ ∃ m, decode u.params.reserved (u.mem.get u.pc) = .ok (.arb m) := by
  rcases runStep_begin_inv h with ⟨-, rfl⟩ | ⟨r, rfl⟩ | ⟨-, i, hd, -, rfl⟩
  · exact absurd rfl hb
  · exact absurd rfl hb
  · obtain ⟨m, rfl⟩ := (effectOf_rb i (begin u)).resolve_left hb
    exact ⟨rfl, m, hd⟩

/-- No other move of the host than reset and a step by hand writes the base. -/
theorem hostMove_rb {m : HostMove} {s t : State} (h : hostMove m s = .next t) (hm : m ≠ .letStep) :
    t.rb = s.rb ∨ ∃ p, m = .reset p := by
  rcases hostMove_inv h with ⟨p, hp, -⟩ | ⟨n, -, -, -, hg⟩ | ⟨hs, -⟩ | ⟨x, -, -, -, hx⟩ | ⟨-, -, rfl⟩ |
    ⟨-, -, rfl⟩
  · exact .inr ⟨p, hp⟩
  · rcases hg with ⟨-, rfl⟩ | ⟨-, -, rfl⟩ <;> exact .inl rfl
  · exact absurd hs hm
  · rcases hx with ⟨-, rfl⟩ | ⟨-, rfl⟩ <;> exact .inl rfl
  · exact .inl rfl
  · exact .inl rfl

theorem resetPending_iff {s : State} :
    resetPending s = true ↔ ∃ p rest, s.inbox = .reset p :: rest := by
  unfold resetPending
  split
  next p rest hi => simp [hi]
  next hi => simpa using hi

/-- A reset is never put off: with one pending, the step is the reset (spec/70_reset_and_hazards.md R250). -/
theorem step_resetPending {s t : State} (hp : resetPending s = true) (h : step s = .next t) :
    ∃ p rest, s.inbox = .reset p :: rest ∧ t = resetWith p { s with inbox := rest } := by
  obtain ⟨p, rest, hi⟩ := resetPending_iff.1 hp
  rw [step_move hi rfl] at h
  rcases hostMove_inv h with ⟨q, hq, -, -, ht⟩ | ⟨_, hq, -⟩ | ⟨hq, -⟩ | ⟨_, hq, -⟩ | ⟨hq, -⟩ | ⟨hq, -⟩ <;>
    cases hq
  exact ⟨p, rest, hi, ht⟩

/-! ### The statements -/

/-- Settles O19: the word's digit names the mode, and `exec` answers the effect when the slot resolves and
the sum fits a cell, else the fault of the first failing check. -/
theorem adjustBaseRule : Obligations.AdjustBaseRule := by
  intro s m1
  exact ⟨fun rd => decode_word1 (by decide) (decodeNat_arb rd) m1, rfl,
    fun h1 hv => exec_of_no_failure (firstFailure_arb_none h1 hv), fun _ => exec_of_failure⟩

/-- Settles O31, by the kinds of transition: an idle engine keeps the base, a Running engine's step changes
it only by ARB, and a move of the host only by reset. -/
theorem onlyArbWritesBase : Obligations.OnlyArbWritesBase := by
  intro s t h
  constructor
  · intro hb
    cases step_transition h with
    | idle _ e => rcases e with rfl | ⟨m, rest, -, rfl⟩ <;> exact absurd rfl hb
    | run hr u hu hrun =>
      rcases hu with rfl | ⟨rest, -, rfl⟩ <;>
        exact .inr ⟨hr, (runStep_begin_rb hrun hb).imp_left fun hst => hst.trans hr⟩
    | host m rest hi hm hmove =>
      obtain ⟨p, rfl⟩ := (hostMove_rb hmove hm).resolve_left hb
      exact .inl (resetPending_iff.2 ⟨p, rest, hi⟩)
  · intro hp
    obtain ⟨p, rest, -, rfl⟩ := step_resetPending hp h
    exact resetWith_rb p _

end Machine

end Sys2Proof
end

section
/-! PROOFS. The statements about the two ways to halt (spec/46_halt.md R205, R207): HALT, and a step that
begins at or past the end of memory. -/

namespace Sys2Proof

/-! ### The word 99 (spec/30_encoding.md R88) -/

theorem decodeNat_halt (rd : ReservedDigits) {w : Nat} (h : w % 100 = 99) :
    decodeNat rd w = checkReserved rd 0 w .halt := by
  simp only [decodeNat, h]

/-- HALT has no mode slot, so every digit above the operation code is reserved, and 99 has none there. -/
theorem decode_word_halt (rd : ReservedDigits) : decode rd 99 = .ok .halt :=
  calc decode rd 99 = decodeNat rd 99 := decode_nat rd 99
    _ = checkReserved rd 0 99 .halt := decodeNat_halt rd rfl
    _ = .ok .halt := checkReserved_ok.2 ⟨rfl, fun _ => rfl⟩

namespace Machine

/-! ### The instruction (spec/46_halt.md R205) -/

/-- HALT has no slot and no check of its own, so it can raise nothing. -/
theorem firstFailure_halt (s : State) : firstFailure (checksOf .halt s) = none := rfl

theorem exec_halt (s : State) : exec .halt s = .next { s with status := .halted } :=
  exec_of_no_failure (firstFailure_halt s)

/-! ### The statements -/

/-- Settles O20: the word decodes to HALT under both settings, `exec` answers HALT's effect, and a step at a
cell that holds 99 is that `exec`; no cell after the cursor is asked for. -/
theorem haltRule : Obligations.HaltRule := by
  intro s
  refine ⟨decode_word_halt, rfl, exec_halt s, fun hr hi hl hw => ?_⟩
  have hd : decode s.params.reserved (s.mem.get s.pc) = .ok .halt := by rw [hw, decode_word_halt]
  rw [step_of_decode_ok hr hi hl hd, exec_halt]

/-- Settles O25: a Running engine's step halts at or past the end of memory, before any fetch. -/
theorem implicitHalt : Obligations.ImplicitHalt :=
  fun _ => step_past_end

end Machine

end Sys2Proof
end

section
/-! PROOFS. The statements about faults (spec/60_exceptions.md R213, R217, R219): that fault entry is the one
way into Faulted, that a step reports the first failing check, and which causes an instruction's checks have. -/

namespace Sys2Proof

/-! ### The size of an instruction's word (spec/30_encoding.md R83) -/

/-- The shape of the word, for every instruction. -/
theorem Laws.EncodeShape.all (i : Instr) : Laws.EncodeShape.Statement i := by
  cases i with
  | add m1 m2 m3 => exact add m1 m2 m3
  | mul m1 m2 m3 => exact mul m1 m2 m3
  | inp m1 => exact inp m1
  | out m1 => exact out m1
  | jt m1 m2 => exact jt m1 m2
  | jf m1 m2 => exact jf m1 m2
  | lt m1 m2 m3 => exact lt m1 m2 m3
  | eq m1 m2 m3 => exact eq m1 m2 m3
  | arb m1 => exact arb m1
  | halt => exact halt

theorem Instr.modes_length_le (i : Instr) : i.modes.length ≤ 3 := by
  cases i <;> simp [Instr.modes]

/-- A word has five digits at most. -/
theorem encodeNat_lt (i : Instr) : encodeNat i < 10 ^ 5 := by
  obtain ⟨-, hlt, -⟩ := Laws.EncodeShape.all i
  exact hlt.trans_le (Nat.pow_le_pow_right (by decide) (Nat.add_le_add_right i.modes_length_le 2))

theorem Mode.destinationOk_eq_false {m : Mode} : m.destinationOk = false ↔ m = .immediate := by
  cases m <;> decide

namespace Machine

/-! ### Fault entry is the one way into Faulted (spec/60_exceptions.md R219) -/

/-- No effect of an instruction faults. -/
theorem effectOf_not_faulted {i : Instr} {s : State} (hs : s.status ≠ .faulted) :
    (effectOf i s).status ≠ .faulted := by
  cases i with
  | inp _ | out _ | halt => exact nofun
  | _ => exact hs

/-- An instruction that faults raises its first failing check. -/
theorem exec_faulted {i : Instr} {s t : State} (hs : s.status ≠ .faulted) (h : exec i s = .next t)
    (ht : t.status = .faulted) : ∃ r, firstFailure (checksOf i s) = some r ∧ t = faultedAt s r := by
  rcases exec_inv h with hr | ⟨-, rfl⟩
  · exact hr
  · exact absurd ht (effectOf_not_faulted hs)

theorem runStep_begin_faulted {s t : State} (hs : s.status ≠ .faulted)
    (h : runStep (begin s) = .next t) (ht : t.status = .faulted) : ∃ r, t = faultedAt (begin s) r := by
  rcases runStep_begin_inv h with ⟨-, rfl⟩ | hr | ⟨-, i, -, -, rfl⟩
  · exact nomatch ht
  · exact hr
  · exact absurd ht (effectOf_not_faulted hs)

/-- Of the host's moves a growth request, `Value` and `Exhausted` can fault. -/
theorem hostMove_faulted {m : HostMove} {s t : State} (hs : s.status ≠ .faulted)
    (h : hostMove m s = .next t) (hm : m ≠ .letStep) (ht : t.status = .faulted) :
    ∃ r, t = faultedAt s r := by
  rcases hostMove_inv h with ⟨p, -, -, -, rfl⟩ | ⟨n, -, -, -, ⟨-, hf⟩ | ⟨-, -, rfl⟩⟩ | ⟨hl, -⟩ |
    ⟨x, -, -, -, ⟨-, rfl⟩ | ⟨-, hf⟩⟩ | ⟨-, -, hf⟩ | ⟨-, -, rfl⟩
  · exact nomatch ht
  · exact ⟨_, hf⟩
  · exact absurd ht hs
  · exact absurd hl hm
  · exact nomatch ht
  · exact ⟨_, hf⟩
  · exact ⟨_, hf⟩
  · exact nomatch ht

/-! ### The checks in their order (spec/60_exceptions.md R217) -/

theorem raisedBy_eq_none {w : Int} {d : Except Reject Instr} (h : raisedBy w d = none) :
    ∃ i, d = .ok i := by
  cases d with
  | ok i => exact ⟨i, rfl⟩
  | error e => cases h

/-- The checks do not read whether the run has begun. -/
theorem checksOf_begin (i : Instr) (s : State) : checksOf i (begin s) = checksOf i s := by
  cases i <;> rfl

/-! ### The causes of an instruction's checks (spec/60_exceptions.md R213) -/

/-- What is raised is the cause of one of the checks. -/
theorem firstFailure_cause {l : List Check} {r : Raise} (h : firstFailure l = some r) :
    ∃ b ∈ l, b.2.1 = r.cause := by
  induction l with
  | nil => cases h
  | cons b l ih =>
    obtain ⟨bad, c, v⟩ := b
    cases bad with
    | true => cases h; exact ⟨_, List.mem_cons_self, rfl⟩
    | false =>
      obtain ⟨b, hb, hc⟩ := ih h
      exact ⟨b, List.mem_cons_of_mem _ hb, hc⟩

theorem sourceChecks_cause {s : State} {m : Mode} {k : Nat} {b : Check} (h : b ∈ sourceChecks s m k) :
    b.2.1 = .outOfBounds := by
  cases m with
  | immediate => rw [List.mem_singleton.1 h]; rfl
  | _ => rcases List.mem_pair.1 h with rfl | rfl <;> rfl

/-- Only an Immediate destination has a check that raises IllegalMode (spec/30_encoding.md R94). -/
theorem destinationChecks_cause {s : State} {m : Mode} {k : Nat} {b : Check}
    (h : b ∈ destinationChecks s m k) :
    b.2.1 = .outOfBounds ∨ (b.2.1 = .illegalMode ∧ m.destinationOk = false) := by
  cases m with
  | immediate =>
    rcases List.mem_pair.1 h with rfl | rfl
    · exact .inl rfl
    · exact .inr ⟨rfl, rfl⟩
  | _ => rcases List.mem_pair.1 h with rfl | rfl <;> exact .inl rfl

/-- The checks of the three slots of ADD, MUL, LT and EQ. -/
theorem slotChecks_cause {s : State} {m1 m2 m3 : Mode} {b : Check}
    (h : b ∈ sourceChecks s m1 1 ++ sourceChecks s m2 2 ++ destinationChecks s m3 3) :
    b.2.1 = .outOfBounds ∨ (b.2.1 = .illegalMode ∧ m3.destinationOk = false) := by
  rcases List.mem_append.1 h with h | h
  · rcases List.mem_append.1 h with h | h <;> exact .inl (sourceChecks_cause h)
  · exact destinationChecks_cause h

/-- Every check of a jump, the sign of its target included. -/
theorem jumpChecks_cause {i : Instr} {m1 m2 : Mode} {s : State} {b : Check}
    (hj : i = .jt m1 m2 ∨ i = .jf m1 m2) (h : b ∈ checksOf i s) : b.2.1 = .outOfBounds := by
  rw [checksOf_jump hj] at h
  rcases List.mem_append.1 h with h | h
  · rcases List.mem_append.1 h with h | h <;> exact sourceChecks_cause h
  · rw [List.mem_singleton.1 h]

theorem mayRaise_outOfBounds {i : Instr} {c : Cause} (hi : i ≠ .halt) (hc : c = .outOfBounds) :
    mayRaise i c = true := by
  subst hc
  exact decide_eq_true hi

/-- What the slots of an instruction with the destination mode `m` raise is in its row. -/
theorem mayRaise_slot {i : Instr} {c : Cause} {m : Mode} (hi : i ≠ .halt)
    (hm : i.wf = m.destinationOk)
    (hc : c = .outOfBounds ∨ (c = .illegalMode ∧ m.destinationOk = false)) : mayRaise i c = true := by
  rcases hc with hc | ⟨rfl, hd⟩
  · exact mayRaise_outOfBounds hi hc
  · rw [mayRaise, hm, hd]; rfl

/-- Every check of an instruction raises a cause of the instruction's row. -/
theorem checksOf_mayRaise {i : Instr} {s : State} {b : Check} (h : b ∈ checksOf i s) :
    mayRaise i b.2.1 = true := by
  cases i with
  | add m1 m2 m3 =>
    rcases List.mem_append.1 h with h | h
    · exact mayRaise_slot nofun rfl (slotChecks_cause h)
    · rw [List.mem_singleton.1 h]; rfl
  | mul m1 m2 m3 =>
    rcases List.mem_append.1 h with h | h
    · exact mayRaise_slot nofun rfl (slotChecks_cause h)
    · rw [List.mem_singleton.1 h]; rfl
  | inp m1 => exact mayRaise_slot nofun rfl (destinationChecks_cause h)
  | out m1 => exact mayRaise_outOfBounds nofun (sourceChecks_cause h)
  | jt m1 m2 => exact mayRaise_outOfBounds nofun (jumpChecks_cause (.inl rfl) h)
  | jf m1 m2 => exact mayRaise_outOfBounds nofun (jumpChecks_cause (.inr rfl) h)
  | lt m1 m2 m3 => exact mayRaise_slot nofun rfl (slotChecks_cause h)
  | eq m1 m2 m3 => exact mayRaise_slot nofun rfl (slotChecks_cause h)
  | arb m1 =>
    rcases List.mem_append.1 h with h | h
    · exact mayRaise_outOfBounds nofun (sourceChecks_cause h)
    · rw [List.mem_singleton.1 h]; rfl
  | halt => cases h

/-! ### States in which an instruction raises each cause of its row -/

/-- The literal cell of slot 1 is the first thing every instruction but HALT checks
(spec/60_exceptions.md R217, item 3). -/
theorem firstFailure_literal_missing {i : Instr} {s : State} (hi : i ≠ .halt)
    (hl : s.len ≤ s.pc + 1) : firstFailure (checksOf i s) = some ⟨.outOfBounds, s.pc + 1⟩ := by
  have hv : valid s (s.pc + 1) = false := by
    rw [← Bool.not_eq_true]
    exact fun hv => absurd (valid_iff.1 hv).2 (by omega)
  have hfirst : ∃ l, checksOf i s = literalCheck s 1 :: l := by
    cases i with
    | halt => exact absurd rfl hi
    | _ => exact ⟨_, rfl⟩
  obtain ⟨l, hfirst⟩ := hfirst
  simp [hfirst, literalCheck, firstFailure, hv]

/-- With the base 0 a literal 0 is a value, or names the cell 0. -/
theorem readable_of_literal_zero {s : State} {k : Nat} (hb : s.rb = 0) (hl : s.pc + k < s.len)
    (h0 : literal s k = 0) (m : Mode) : readable s m k = true := by
  have hv : valid s 0 = true := valid_iff.2 ⟨le_rfl, by omega⟩
  cases m <;> simp [readable, valid_lit.2 hl, slotAddress, h0, hb, hv]

theorem firstFailure_destination_immediate {s : State} {k : Nat} (hl : s.pc + k < s.len) :
    firstFailure (destinationChecks s .immediate k) = some ⟨.illegalMode, s.mem.get s.pc⟩ := by
  simp [destinationChecks, literalCheck, firstFailure, slotAddress, valid_lit.2 hl]

/-- The slots of an instruction whose sources resolve and whose destination is Immediate. -/
theorem firstFailure_slots_immediate {s : State} {m1 m2 m3 : Mode} (hl : s.pc + 3 < s.len)
    (h1 : readable s m1 1 = true) (h2 : readable s m2 2 = true) (h3 : m3.destinationOk = false) :
    firstFailure (sourceChecks s m1 1 ++ sourceChecks s m2 2 ++ destinationChecks s m3 3)
      = some ⟨.illegalMode, s.mem.get s.pc⟩ := by
  rw [Mode.destinationOk_eq_false.1 h3]
  exact firstFailure_append_some.2 (.inr ⟨firstFailure_append_none.2 ⟨source_none.2 h1, source_none.2 h2⟩,
    firstFailure_destination_immediate hl⟩)

/-- An ill-formed instruction whose sources resolve raises its word (spec/30_encoding.md R94). -/
theorem firstFailure_illFormed {i : Instr} {s : State} (hi : i.wf = false) (hl : s.pc + 3 < s.len)
    (hr1 : ∀ m, readable s m 1 = true) (hr2 : ∀ m, readable s m 2 = true) :
    firstFailure (checksOf i s) = some ⟨.illegalMode, s.mem.get s.pc⟩ := by
  have slots : ∀ m1 m2 m3 : Mode, m3.destinationOk = false →
      firstFailure (sourceChecks s m1 1 ++ sourceChecks s m2 2 ++ destinationChecks s m3 3)
        = some ⟨.illegalMode, s.mem.get s.pc⟩ := fun m1 m2 m3 =>
    firstFailure_slots_immediate hl (hr1 m1) (hr2 m2)
  cases i with
  | add m1 m2 m3 => exact firstFailure_append_some.2 (.inl (slots m1 m2 m3 hi))
  | mul m1 m2 m3 => exact firstFailure_append_some.2 (.inl (slots m1 m2 m3 hi))
  | inp m1 =>
    rw [Mode.destinationOk_eq_false.1 hi]
    exact firstFailure_destination_immediate (by omega)
  | lt m1 m2 m3 => exact slots m1 m2 m3 hi
  | eq m1 m2 m3 => exact slots m1 m2 m3 hi
  | _ => cases hi

/-- Reset leaves a state that meets the invariant (spec/70_reset_and_hazards.md R250). -/
theorem resetWith_inv {s : State} {p : List Int} (hp : paramsOk s.params = true)
    (hl : p.length ≤ s.params.memMax) (hv : p.all (inRange s.params.width) = true) :
    (resetWith p s).Inv where
  params := hp
  canonical := Memory.wf_ofImage p
  cells := by simpa using Memory.fits_ofImage hv 0
  length := hl
  cursor := (inRange_iff.1 (inRange_zero _)).2
  base := inRange_zero _
  input := nofun
  output := nofun
  record := nofun
  unstarted := fun _ => ⟨rfl, rfl, .inl rfl⟩

/-- An engine under way at index 0, where an instruction stands with its literals. -/
def poised (i : Instr) (literals : List Int) (rb : Int) : State :=
  { resetWith (assemble i literals) State.reset with rb := rb, started := true }

section Poised
variable {i : Instr} {literals : List Int} {rb : Int}

theorem poised_word : (poised i literals rb).mem.get 0 = encode i :=
  Memory.get_ofImage _ 0 0

theorem poised_literal (k : Nat) : literal (poised i literals rb) (k + 1) = literals.getD k 0 :=
  Memory.get_ofImage _ 0 (k + 1)

theorem poised_inv (hl : literals.length ≤ 3) (hv : literals.all (inRange 64) = true)
    (hb : inRange 64 rb = true) : (poised i literals rb).Inv := by
  have hword : inRange 64 (encode i) = true := by
    have hlt := encodeNat_lt i
    have hmin : intMin 64 = -9223372036854775808 := by decide
    have hmax : intMax 64 = 9223372036854775807 := by decide
    rw [inRange_iff, encode, hmin, hmax]
    omega
  have hlen : (assemble i literals).length ≤ State.reset.params.memMax :=
    (Nat.succ_le_succ hl).trans (by decide)
  have hcells : (assemble i literals).all (inRange State.reset.params.width) = true := by
    rw [assemble, List.all_cons, Bool.and_eq_true]
    exact ⟨hword, hv⟩
  have hreset : (resetWith (assemble i literals) State.reset).Inv := resetWith_inv (by decide) hlen hcells
  exact { hreset with base := hb, unstarted := nofun }

end Poised

/-- The instruction raises the cause in some state that meets the invariant. -/
def CanRaise (i : Instr) (c : Cause) : Prop :=
  ∃ s : State, s.Inv ∧ s.status = .running ∧ s.pc < s.len ∧ s.mem.get s.pc = encode i ∧
    ∃ v, firstFailure (checksOf i s) = some ⟨c, v⟩

theorem canRaise_poised {i : Instr} {literals : List Int} {rb v : Int} {c : Cause}
    (hinv : (poised i literals rb).Inv)
    (hf : firstFailure (checksOf i (poised i literals rb)) = some ⟨c, v⟩) : CanRaise i c :=
  ⟨_, hinv, rfl, Nat.succ_pos _, poised_word, v, hf⟩

/-- At the last cell of memory, the literal of slot 1 does not exist. -/
theorem canRaise_outOfBounds {i : Instr} (hi : i ≠ .halt) : CanRaise i .outOfBounds :=
  canRaise_poised (poised_inv (literals := []) (rb := 0) (by decide) (by decide) (by decide))
    (firstFailure_literal_missing hi le_rfl)

/-- With literals and base 0 every source resolves, and the Immediate destination is the first failure. -/
theorem canRaise_illegalMode {i : Instr} (hi : i.wf = false) : CanRaise i .illegalMode := by
  have hinv : (poised i [0, 0, 0] 0).Inv := poised_inv (by decide) (by decide) (by decide)
  have hl : (poised i [0, 0, 0] 0).pc + 3 < (poised i [0, 0, 0] 0).len := show 0 + 3 < 4 by decide
  exact canRaise_poised hinv (firstFailure_illFormed hi hl
    (readable_of_literal_zero rfl (by omega) (poised_literal 0))
    (readable_of_literal_zero rfl (by omega) (poised_literal 1)))

/-- With the Immediate sources and the base all `INT_MAX`, the sum, the product and the new base exceed it. -/
theorem canRaise_overflow {i : Instr} (hi : mayRaise i .overflow = true) :
    ∃ j : Instr, j.opcode = i.opcode ∧ CanRaise j .overflow := by
  have hinv : ∀ j, (poised j [intMax 64, intMax 64, 0] (intMax 64)).Inv := fun j =>
    poised_inv (by decide) (by decide) (by decide)
  cases i with
  | add => exact ⟨.add .immediate .immediate .position, rfl, canRaise_poised (hinv _) rfl⟩
  | mul => exact ⟨.mul .immediate .immediate .position, rfl, canRaise_poised (hinv _) rfl⟩
  | arb => exact ⟨.arb .immediate, rfl, canRaise_poised (hinv _) rfl⟩
  | _ => cases hi

/-- Every entry of an instruction's row, with the operation's modes chosen where the row does not fix them. -/
theorem exists_canRaise {i : Instr} {c : Cause} (h : mayRaise i c = true) :
    ∃ j : Instr, j.opcode = i.opcode ∧ CanRaise j c := by
  cases c with
  | outOfBounds => exact ⟨i, rfl, canRaise_outOfBounds (of_decide_eq_true h)⟩
  | illegalMode => exact ⟨i, rfl, canRaise_illegalMode (by simpa [mayRaise] using h)⟩
  | overflow => exact canRaise_overflow h
  | _ => cases h

/-! ### The statements -/

/-- Settles O26: the step is the implicit halt, or the decoder's raise, or the instruction's `exec`, whose two
answers are the fault of its first failing check and an effect, which does not fault. -/
theorem firstFailureIsReported : Obligations.FirstFailureIsReported := by
  intro s
  refine ⟨fun hr hi => ⟨fun hl => ⟨_, step_past_end hr hi hl, rfl⟩, fun hl =>
    ⟨fun r => step_of_decodeChecks_fail hr hi hl, fun hd => ?_⟩⟩, inputExhaustion s⟩
  rw [firstFailure_decodeChecks] at hd
  obtain ⟨i, hd⟩ := raisedBy_eq_none hd
  have hstep : step s = exec i (begin s) := step_of_decode_ok hr hi hl hd
  refine ⟨i, hd, fun r hf => ?_, fun hf => ?_⟩ <;> rw [← checksOf_begin] at hf
  · exact hstep.trans (exec_of_failure hf)
  · have hrun : (begin s).status ≠ .faulted := by simp [hr]
    exact ⟨_, hstep.trans (exec_of_no_failure hf), effectOf_not_faulted hrun⟩

/-- Settles O27, by the kinds of transition: an idle engine keeps its status, and a Running engine's step or a
move of the host that ends Faulted is fault entry. -/
theorem faultsArePrecise : Obligations.FaultsArePrecise := by
  intro s t hs h ht
  cases step_transition h with
  | idle _ e => rcases e with rfl | ⟨m, rest, -, rfl⟩ <;> exact absurd ht hs
  | run _ u hu hrun =>
    have hus : u.status ≠ .faulted := by rcases hu with rfl | ⟨rest, -, rfl⟩ <;> exact hs
    obtain ⟨r, rfl⟩ := runStep_begin_faulted hus hrun ht
    rcases hu with rfl | ⟨rest, -, rfl⟩ <;> exact ⟨r, _, _, rfl⟩
  | host m rest _ hm hmove =>
    obtain ⟨r, rfl⟩ := hostMove_faulted (s := { s with inbox := rest }) hs hmove hm ht
    exact ⟨r, _, _, rfl⟩

/-- Settles O28: an instruction that faults raises the cause of one of its checks, all of which are in its
row, and each entry of the row is the first failure in a state of `exists_canRaise`. -/
theorem causesOfEachInstruction : Obligations.CausesOfEachInstruction := by
  refine ⟨fun _ _ e _ => ?_, ⟨0, rfl⟩, ⟨199, rfl⟩, fun i s t hr h ht => ?_, fun i c h => ?_,
    fun s hs => ⟨_, replyExhausted_suspended hs, rfl, rfl⟩⟩
  · cases e with
    | malformedOpcode => exact .inl rfl
    | illegalMode => exact .inr rfl
  · obtain ⟨r, hf, rfl⟩ := exec_faulted (by simp [hr]) h ht
    obtain ⟨b, hb, hc⟩ := firstFailure_cause hf
    have hrow := checksOf_mayRaise hb
    rw [hc] at hrow
    exact hrow
  · obtain ⟨j, hj, s, hinv, hr, hl, hw, v, hf⟩ := exists_canRaise h
    exact ⟨j, s, _, hj, hinv, hr, hl, hw, exec_of_failure hf, rfl, rfl⟩

end Machine

end Sys2Proof
end

section
/-! PROOFS. The statements about the encoding (spec/30_encoding.md R83, R88, R92): the word of an instruction,
which words decode to it under each setting of `RESERVED_DIGITS`, and how many words there are. -/

namespace Sys2Proof

theorem Instr.opcode_lt (i : Instr) : i.opcode < 100 := by
  cases i <;> simp [Instr.opcode]

/-! ### An instruction's word decodes to it (spec/30_encoding.md R83) -/

section RoundTrip
variable {rd : ReservedDigits} {i : Instr} {m1 m2 m3 : Mode}

theorem decode_encode_three {mk : Mode → Mode → Mode → Instr} (hi : mk m1 m2 m3 = i)
    (hm : i.modes = [m1, m2, m3])
    (hmk : ∀ {w : Nat}, w % 100 = i.opcode → decodeNat rd w = decode3 rd w mk) :
    decode rd (encode i) = .ok i := by
  have hw : encodeNat i =
      i.opcode + 100 * modeDigit m1 + 1000 * modeDigit m2 + 10000 * modeDigit m3 := by
    simp only [encodeNat, hm, modeField]; omega
  rw [encode, hw, decode_word3 i.opcode_lt hmk, hi]

theorem decode_encode_two {mk : Mode → Mode → Instr} (hi : mk m1 m2 = i) (hm : i.modes = [m1, m2])
    (hmk : ∀ {w : Nat}, w % 100 = i.opcode → decodeNat rd w = decode2 rd w mk) :
    decode rd (encode i) = .ok i := by
  have hw : encodeNat i = i.opcode + 100 * modeDigit m1 + 1000 * modeDigit m2 := by
    simp only [encodeNat, hm, modeField]; omega
  rw [encode, hw, decode_word2 i.opcode_lt hmk, hi]

theorem decode_encode_one {mk : Mode → Instr} (hi : mk m1 = i) (hm : i.modes = [m1])
    (hmk : ∀ {w : Nat}, w % 100 = i.opcode → decodeNat rd w = decode1 rd w mk) :
    decode rd (encode i) = .ok i := by
  have hw : encodeNat i = i.opcode + 100 * modeDigit m1 := by
    simp only [encodeNat, hm, modeField]; omega
  rw [encode, hw, decode_word1 i.opcode_lt hmk, hi]

end RoundTrip

theorem decode_encode (rd : ReservedDigits) (i : Instr) : decode rd (encode i) = .ok i := by
  cases i with
  | add => exact decode_encode_three rfl rfl (decodeNat_add rd)
  | mul => exact decode_encode_three rfl rfl (decodeNat_mul rd)
  | inp => exact decode_encode_one rfl rfl (decodeNat_inp rd)
  | out => exact decode_encode_one rfl rfl (decodeNat_out rd)
  | jt => exact decode_encode_two rfl rfl (decodeNat_jt rd)
  | jf => exact decode_encode_two rfl rfl (decodeNat_jf rd)
  | lt => exact decode_encode_three rfl rfl (decodeNat_lt rd)
  | eq => exact decode_encode_three rfl rfl (decodeNat_eq rd)
  | arb => exact decode_encode_one rfl rfl (decodeNat_arb rd)
  | halt => exact decode_word_halt rd

/-! ### Under `fault` no other word decodes to it (spec/30_encoding.md R88, R92) -/

section OneWord
variable {w : Nat} {i : Instr} (ho : w % 100 = i.opcode)
include ho

/-- The operation code, the mode digits read, and the 0 that `fault` demands above them make up the word. -/
theorem eq_encodeNat_of_decode3 {mk : Mode → Mode → Mode → Instr} (h : decode3 .fault w mk = .ok i)
    (hmk : ∀ m1 m2 m3, (mk m1 m2 m3).modes = [m1, m2, m3]) : w = encodeNat i := by
  obtain ⟨m1, m2, m3, h1, h2, h3, rfl, hz⟩ := decode3_ok.1 h
  have hz := hz rfl
  simp only [encodeNat, hmk, modeField, digit] at *
  omega

theorem eq_encodeNat_of_decode2 {mk : Mode → Mode → Instr} (h : decode2 .fault w mk = .ok i)
    (hmk : ∀ m1 m2, (mk m1 m2).modes = [m1, m2]) : w = encodeNat i := by
  obtain ⟨m1, m2, h1, h2, rfl, hz⟩ := decode2_ok.1 h
  have hz := hz rfl
  simp only [encodeNat, hmk, modeField, digit] at *
  omega

theorem eq_encodeNat_of_decode1 {mk : Mode → Instr} (h : decode1 .fault w mk = .ok i)
    (hmk : ∀ m1, (mk m1).modes = [m1]) : w = encodeNat i := by
  obtain ⟨m1, h1, rfl, hz⟩ := decode1_ok.1 h
  have hz := hz rfl
  simp only [encodeNat, hmk, modeField, digit] at *
  omega

theorem eq_encodeNat_of_checkReserved {j : Instr} (h : checkReserved .fault 0 w j = .ok i)
    (hj : j.modes = []) : w = encodeNat i := by
  obtain ⟨rfl, hz⟩ := checkReserved_ok.1 h
  have hz := hz rfl
  simp only [encodeNat, hj, modeField] at *
  omega

end OneWord

theorem eq_encodeNat_of_decodeNat {w : Nat} {i : Instr} (h : decodeNat .fault w = .ok i) :
    w = encodeNat i := by
  have ho := opcode_of_decodeNat h
  rcases decodeNat_of_opcode .fault w with ⟨-, hd⟩ | ⟨-, hd⟩ | ⟨-, hd⟩ | ⟨-, hd⟩ | ⟨-, hd⟩ |
    ⟨-, hd⟩ | ⟨-, hd⟩ | ⟨-, hd⟩ | ⟨-, hd⟩ | ⟨-, hd⟩ | ⟨-, hd⟩ <;> rw [hd] at h
  · exact eq_encodeNat_of_decode3 ho h fun _ _ _ => rfl
  · exact eq_encodeNat_of_decode3 ho h fun _ _ _ => rfl
  · exact eq_encodeNat_of_decode1 ho h fun _ => rfl
  · exact eq_encodeNat_of_decode1 ho h fun _ => rfl
  · exact eq_encodeNat_of_decode2 ho h fun _ _ => rfl
  · exact eq_encodeNat_of_decode2 ho h fun _ _ => rfl
  · exact eq_encodeNat_of_decode3 ho h fun _ _ _ => rfl
  · exact eq_encodeNat_of_decode3 ho h fun _ _ _ => rfl
  · exact eq_encodeNat_of_decode1 ho h fun _ => rfl
  · exact eq_encodeNat_of_checkReserved ho h rfl
  · cases h

theorem decode_fault_iff {w : Int} {i : Instr} : decode .fault w = .ok i ↔ w = encode i := by
  constructor
  · intro h
    by_cases hneg : w < 0
    · rw [decode_negative _ hneg] at h; cases h
    · obtain ⟨n, rfl⟩ := Int.eq_ofNat_of_zero_le (Int.not_lt.1 hneg)
      rw [decode_nat] at h
      rw [encode, ← eq_encodeNat_of_decodeNat h]
  · rintro rfl
    exact decode_encode .fault i

/-! ### Under `ignore` the digits above are free (spec/30_encoding.md R92) -/

/-- A word that ends in the operation code of `i` decodes as its digits below `i`'s first unused place. -/
theorem decode_ignore_of_opcode {w : Nat} {i : Instr} (ho : w % 100 = i.opcode) :
    decode .ignore (w : Int) = decode .fault ((w % 10 ^ (i.modes.length + 2) : Nat) : Int) := by
  obtain ⟨-, -, hn, -⟩ := Laws.EncodeShape.all i
  exact decode_ignore (ho ▸ hn)

theorem decode_ignore_iff {w : Nat} {i : Instr} :
    decode .ignore (w : Int) = .ok i ↔ w % 10 ^ (i.modes.length + 2) = encodeNat i := by
  constructor
  · intro h
    have ho : w % 100 = i.opcode := opcode_of_decodeNat (decode_nat .ignore w ▸ h)
    rw [decode_ignore_of_opcode ho, decode_fault_iff] at h
    exact Int.ofNat.inj h
  · intro h
    obtain ⟨hop, -⟩ := Laws.EncodeShape.all i
    have ho : w % 100 = i.opcode := by rw [← opcode_mod_pow w i.modes.length, h, hop]
    rw [decode_ignore_of_opcode ho, decode_fault_iff, h, encode]

/-! ### How many words are accepted (spec/30_encoding.md R88) -/

/-- The three modes. -/
def allModes : List Mode := [.position, .immediate, .relative]

/-- The operation codes (spec/30_encoding.md R88). -/
def allOpcodes : List Nat := [1, 2, 3, 4, 5, 6, 7, 8, 9, 99]

/-- The instructions of an operation code, with every mode in every slot. -/
def instrsOf (op : Nat) : List Instr :=
  let one (mk : Mode → Instr) := allModes.map mk
  let two (mk : Mode → Mode → Instr) := allModes.flatMap fun m1 => one (mk m1)
  let three (mk : Mode → Mode → Mode → Instr) := allModes.flatMap fun m1 => two (mk m1)
  match op with
  | 1 => three .add
  | 2 => three .mul
  | 3 => one .inp
  | 4 => one .out
  | 5 => two .jt
  | 6 => two .jf
  | 7 => three .lt
  | 8 => three .eq
  | 9 => one .arb
  | 99 => [.halt]
  | _ => []

/-- Every instruction. -/
def allInstrs : List Instr := allOpcodes.flatMap instrsOf

theorem mem_allModes (m : Mode) : m ∈ allModes := by
  cases m <;> decide

theorem mem_instrsOf {op : Nat} {i : Instr} (h : op ∈ allOpcodes) :
    i ∈ instrsOf op ↔ i.opcode = op := by
  simp only [allOpcodes, List.mem_cons, List.not_mem_nil, or_false] at h
  rcases h with rfl | rfl | rfl | rfl | rfl | rfl | rfl | rfl | rfl | rfl <;>
    cases i <;> simp [instrsOf, mem_allModes, Instr.opcode]

theorem opcode_mem (i : Instr) : i.opcode ∈ allOpcodes := by
  cases i <;> simp [Instr.opcode, allOpcodes]

theorem mem_allInstrs (i : Instr) : i ∈ allInstrs :=
  List.mem_flatMap.2 ⟨i.opcode, opcode_mem i, (mem_instrsOf (opcode_mem i)).2 rfl⟩

theorem nodup_instrsOf : ∀ op ∈ allOpcodes, (instrsOf op).Nodup := by decide

/-- Instructions of different operation codes differ, and each operation code's are listed once. -/
theorem nodup_allInstrs : allInstrs.Nodup := by
  refine List.nodup_flatMap.2 ⟨nodup_instrsOf, ?_⟩
  have hcodes : allOpcodes.Nodup := by decide
  refine hcodes.imp_of_mem fun hop hop' hne => ?_
  intro i hi hi'
  exact hne (((mem_instrsOf hop).1 hi).symm.trans ((mem_instrsOf hop').1 hi'))

theorem encodeNat_injective : Function.Injective encodeNat := by
  intro i j h
  have hw : encode i = encode j := congrArg Int.ofNat h
  exact Except.ok.inj ((decode_encode .fault i).symm.trans (hw ▸ decode_encode .fault j))

/-! ### The statements -/

/-- Settles O1: the word's digits are the operation code and the mode digits that the decoder reads back. -/
theorem decodeEncodeRoundTrip : Obligations.DecodeEncodeRoundTrip :=
  decode_encode

/-- Settles O2: the digits read and the reserved digits, which must be 0, are all the digits there are. -/
theorem onlyTheEncodingDecodes : Obligations.OnlyTheEncodingDecodes :=
  fun _ _ => decode_fault_iff

/-- Settles O3: the accepted words are the words of all the instructions, which differ from each other. -/
theorem acceptedWordsCounted : Obligations.AcceptedWordsCounted := by
  refine ⟨allInstrs.map encodeNat, nodup_allInstrs.map encodeNat_injective, rfl, fun w => ?_, ?_⟩
  · simp only [decode_fault_iff, List.mem_map]
    constructor
    · rintro ⟨i, rfl⟩
      exact ⟨_, ⟨i, mem_allInstrs i, rfl⟩, rfl⟩
    · rintro ⟨n, ⟨i, -, rfl⟩, rfl⟩
      exact ⟨i, rfl⟩
  · have hdec : ∀ i, decode .fault (encodeNat i : Int) = .ok i := decode_encode .fault
    simp only [List.bind_eq_flatMap, List.pure_def, ← List.map_eq_flatMap, List.map_map, List.filter_map,
      List.length_map, Function.comp_def, hdec]
    rfl

/-- Settles O4: under `ignore` a word reads as its digits below the first unused place do under `fault`. -/
theorem ignoredDigitsAreFree : Obligations.IgnoredDigitsAreFree :=
  fun _ _ => decode_ignore_iff

/-- Settles O8: the ten words that decode are the encodings of the instructions named. -/
theorem specWordsDecode : Obligations.SpecWordsDecode :=
  ⟨decode_encode .fault (.mul .position .immediate .position),
    decode_encode .fault (.add .relative .relative .relative),
    decode_encode .fault (.lt .immediate .immediate .relative),
    decode_encode .fault (.eq .position .immediate .position),
    decode_encode .fault (.inp .immediate), decode_encode .fault (.out .relative),
    decode_encode .fault (.jf .relative .immediate), decode_encode .fault (.jt .immediate .position),
    decode_encode .fault (.arb .relative), decode_encode .fault .halt, rfl, rfl,
    decode_ignore_iff.2 rfl⟩

end Sys2Proof
end

section
/-! PROOFS. The frame statements (spec/20_memory.md R54, R66; spec/10_state.md R22): what a store leaves
unchanged, and what each effect of an instruction does. -/

namespace Sys2Proof.Machine

/-! ### The effect of an instruction, field by field -/

section Effect
variable (i : Instr) (s : State)

@[simp] theorem effectOf_params : (effectOf i s).params = s.params := by cases i <;> rfl
@[simp] theorem effectOf_len : (effectOf i s).len = s.len := by cases i <;> rfl
@[simp] theorem effectOf_fcause : (effectOf i s).fcause = s.fcause := by cases i <;> rfl
@[simp] theorem effectOf_fpc : (effectOf i s).fpc = s.fpc := by cases i <;> rfl
@[simp] theorem effectOf_faddr : (effectOf i s).faddr = s.faddr := by cases i <;> rfl
@[simp] theorem effectOf_started : (effectOf i s).started = s.started := by cases i <;> rfl
@[simp] theorem effectOf_inbox : (effectOf i s).inbox = s.inbox := by cases i <;> rfl

theorem effectOf_ioAddr : (effectOf i s).ioAddr = s.ioAddr ∨ ∃ m, i = .inp m := by
  cases i with
  | inp m1 => exact .inr ⟨m1, rfl⟩
  | _ => exact .inl rfl

theorem effectOf_ioVal : (effectOf i s).ioVal = s.ioVal ∨ ∃ m, i = .out m := by
  cases i with
  | out m1 => exact .inr ⟨m1, rfl⟩
  | _ => exact .inl rfl

/-- Only IN, OUT and HALT set the status (spec/10_state.md R28). -/
theorem effectOf_status : (effectOf i s).status = s.status ∨
    (∃ m, i = .inp m ∧ (effectOf i s).status = .suspendedForInput) ∨
    (∃ m, i = .out m ∧ (effectOf i s).status = .suspendedForOutput) ∨
    (i = .halt ∧ (effectOf i s).status = .halted) := by
  cases i with
  | inp m1 => exact .inr (.inl ⟨m1, rfl, rfl⟩)
  | out m1 => exact .inr (.inr (.inl ⟨m1, rfl, rfl⟩))
  | halt => exact .inr (.inr (.inr ⟨rfl, rfl⟩))
  | _ => exact .inl rfl

end Effect

/-! ### The instructions that store (spec/20_memory.md R54) -/

section Storing
variable {i : Instr} {s : State} {d : Nat} {v : Int}

theorem effectOf_mem_of_not_storing (h : storesMemory i = false) : (effectOf i s).mem = s.mem := by
  cases i with
  | add | mul | lt | eq => cases h
  | _ => rfl

/-- Of the instructions that store nothing, the jumps and ARB move the cursor. -/
theorem effectOf_pc_of_not_storing (h : storesMemory i = false) : (effectOf i s).pc = s.pc ∨
    (∃ m1 m2, i = .jt m1 m2) ∨ (∃ m1 m2, i = .jf m1 m2) ∨ ∃ m, i = .arb m := by
  cases i with
  | add | mul | lt | eq => cases h
  | jt m1 m2 => exact .inr (.inl ⟨m1, m2, rfl⟩)
  | jf m1 m2 => exact .inr (.inr (.inl ⟨m1, m2, rfl⟩))
  | arb m1 => exact .inr (.inr (.inr ⟨m1, rfl⟩))
  | inp | out | halt => exact .inl rfl

/-- The one store and the cursor's advance are the whole effect. -/
theorem effectOf_of_storedBy (h : storedBy i s = some (d, v)) :
    effectOf i s = { s with mem := s.mem.set d v, pc := s.pc + 4 } := by
  cases i with
  | add | mul | lt | eq => cases h; rfl
  | _ => cases h

end Storing

section ThreeSlots
variable {i : Instr} {m1 m2 m3 : Mode} {s : State}

/-- The slots of a storing instruction have resolved when none of its checks fails. -/
theorem slots_of_no_failure
    (h : firstFailure (sourceChecks s m1 1 ++ sourceChecks s m2 2 ++ destinationChecks s m3 3) = none) :
    readable s m1 1 = true ∧ readable s m2 2 = true ∧ writable s m3 3 = true := by
  obtain ⟨h12, h3⟩ := firstFailure_append_none.1 h
  obtain ⟨h1, h2⟩ := firstFailure_append_none.1 h12
  exact ⟨source_none.1 h1, source_none.1 h2, destination_none.1 h3⟩

variable (hi : i = .add m1 m2 m3 ∨ i = .mul m1 m2 m3 ∨ i = .lt m1 m2 m3 ∨ i = .eq m1 m2 m3)
include hi

/-- Where it stores. -/
theorem storedBy_target : ∃ v, storedBy i s = some (target s m3 3, v) := by
  rcases hi with rfl | rfl | rfl | rfl <;> exact ⟨_, rfl⟩

theorem writable_of_no_failure (hf : firstFailure (checksOf i s) = none) : writable s m3 3 = true := by
  have hslots :
      firstFailure (sourceChecks s m1 1 ++ sourceChecks s m2 2 ++ destinationChecks s m3 3) = none := by
    rcases hi with rfl | rfl | rfl | rfl
    · exact (firstFailure_append_none.1 hf).1
    · exact (firstFailure_append_none.1 hf).1
    · exact hf
    · exact hf
  obtain ⟨-, -, h3⟩ := slots_of_no_failure hslots
  exact h3

/-- What a storing instruction answers: a fault, or the store at the address that slot 3 resolves to. -/
theorem exec_storing_inv {t : State} (h : exec i s = .next t) :
    (∃ r, t = faultedAt s r) ∨ (readAddress s m3 3 = .ok (target s m3 3) ∧
      ∃ v, t = { s with mem := s.mem.set (target s m3 3) v, pc := s.pc + 4 }) := by
  rcases exec_inv h with ⟨r, -, rfl⟩ | ⟨hf, rfl⟩
  · exact .inl ⟨r, rfl⟩
  · obtain ⟨v, hv⟩ := storedBy_target (s := s) hi
    exact .inr ⟨readAddress_ok (writable_of_no_failure hi hf), v, effectOf_of_storedBy hv⟩

end ThreeSlots

/-- An instruction that stores, stores where its slot 3 resolves to (spec/20_memory.md R54). -/
theorem writable_of_storedBy {i : Instr} {s : State} {d : Nat} {v : Int}
    (hf : firstFailure (checksOf i s) = none) (h : storedBy i s = some (d, v)) :
    ∃ m3, writable s m3 3 = true ∧ d = target s m3 3 := by
  have hstores : ∃ m1 m2 m3, (i = .add m1 m2 m3 ∨ i = .mul m1 m2 m3 ∨ i = .lt m1 m2 m3 ∨
      i = .eq m1 m2 m3) ∧ d = target s m3 3 := by
    cases i with
    | add m1 m2 m3 | mul m1 m2 m3 | lt m1 m2 m3 | eq m1 m2 m3 => cases h; exact ⟨m1, m2, m3, by simp⟩
    | _ => cases h
  obtain ⟨m1, m2, m3, hi, hd⟩ := hstores
  exact ⟨m3, writable_of_no_failure hi hf, hd⟩

/-! ### The statements -/

/-- Settles O21, by whether the cell read is the cell written. -/
theorem readsGiveLatestWrite : Obligations.ReadsGiveLatestWrite := by
  intro m a b v
  split
  · next h => rw [h, Memory.get_set_same]
  · next h => exact Memory.get_set_ne m v h

/-- Settles O22: a fault leaves memory, and the effect writes the one cell that `readAddress` gives. -/
theorem storingFrame : Obligations.StoringFrame := by
  intro i m1 m2 m3 s t hi h
  rcases exec_storing_inv hi h with ⟨r, rfl⟩ | ⟨hd, v, rfl⟩
  · exact ⟨rfl, rfl, rfl, rfl, rfl, rfl, rfl, .inr ⟨rfl, rfl, rfl⟩, fun _ _ _ _ => rfl, fun _ => rfl⟩
  · refine ⟨rfl, rfl, rfl, rfl, rfl, rfl, rfl, .inl ⟨rfl, rfl, rfl, rfl⟩, fun d hd' a ha => ?_,
      fun hno => absurd hd (hno _)⟩
    cases hd.symm.trans hd'
    exact Memory.get_set_ne s.mem v ha

/-- Settles O23: a fault leaves all but the record and the status, and each effect writes only the registers
that its rule names. -/
theorem nonStoringFrame : Obligations.NonStoringFrame := by
  intro i s t hi h
  rcases exec_inv h with ⟨r, -, rfl⟩ | ⟨-, rfl⟩
  · exact ⟨fun _ => rfl, rfl, rfl, rfl, rfl, fun _ => rfl, fun _ => rfl, fun _ => rfl,
      fun _ _ _ => rfl, .inr ⟨rfl, rfl, rfl, rfl, rfl, rfl⟩, .inr (.inl rfl)⟩
  · refine ⟨fun a => by rw [effectOf_mem_of_not_storing hi], by simp, by simp, by simp, by simp,
      fun hn => (effectOf_rb i s).resolve_right fun ⟨m, hm⟩ => hn m hm,
      fun hn => (effectOf_ioAddr i s).resolve_right fun ⟨m, hm⟩ => hn m hm,
      fun hn => (effectOf_ioVal i s).resolve_right fun ⟨m, hm⟩ => hn m hm,
      fun hjt hjf harb => (effectOf_pc_of_not_storing hi).resolve_right ?_, .inl (by simp),
      (effectOf_status i s).imp_right .inr⟩
    rintro (⟨m1, m2, hm⟩ | ⟨m1, m2, hm⟩ | ⟨m, hm⟩)
    · exact hjt m1 m2 hm
    · exact hjf m1 m2 hm
    · exact harb m hm

end Sys2Proof.Machine
end

section
/-! PROOFS. The statements about single transitions (spec/10_state.md R22, R28, R31; spec/20_memory.md R71;
spec/40_decode_resolve_loop.md R122 to R126; spec/42_input_output.md R151, R161): from one list of everything
a step of the machine can do. -/

namespace Sys2Proof.Machine

/-! ### Everything a step can do -/

/-- The moves the host has left after a step: all of them, or all but the oldest (log entry 1). -/
def MovesLeft (s : State) (moves : List HostMove) : Prop :=
  moves = s.inbox ∨ ∃ m, s.inbox = m :: moves

/-- The kinds of transition, each with what it requires and the whole state it leaves. -/
inductive StepCase (s t : State) : Prop where
  | idle (moves : List HostMove) (hm : MovesLeft s moves) (hs : s.status ≠ .running)
      (e : t = { s with inbox := moves })
  | pastEnd (moves : List HostMove) (hm : MovesLeft s moves) (hr : s.status = .running)
      (hl : s.len ≤ s.pc) (e : t = { s with status := .halted, started := true, inbox := moves })
  | fault (moves : List HostMove) (hm : MovesLeft s moves) (r : Raise) (b : Bool)
      (hs : s.status = .running ∨ (s.status = .suspendedForInput ∧
        ((∃ x, s.inbox = .value x :: moves) ∨ s.inbox = .exhausted :: moves)))
      (hb : b = false → s.started = false)
      (e : t = faultedAt { s with started := b, inbox := moves } r)
  | effect (moves : List HostMove) (hm : MovesLeft s moves) (hr : s.status = .running)
      (hl : s.pc < s.len) (i : Instr) (hd : decode s.params.reserved (s.mem.get s.pc) = .ok i)
      (hf : firstFailure (checksOf i s) = none)
      (e : t = { effectOf i s with started := true, inbox := moves })
  | reset (p : List Int) (rest : List HostMove) (hi : s.inbox = .reset p :: rest)
      (hl : p.length ≤ s.params.memMax) (hv : p.all (inRange s.params.width) = true)
      (e : t = resetWith p { s with inbox := rest })
  | grow (n : Int) (rest : List HostMove) (hi : s.inbox = .grow n :: rest) (hr : s.status = .running)
      (hs : s.started = false) (hlow : (s.len : Int) ≤ n) (hmax : n ≤ s.params.memMax)
      (e : t = { s with len := n.toNat, inbox := rest })
  | input (x : Int) (rest : List HostMove) (hi : s.inbox = .value x :: rest)
      (hs : s.status = .suspendedForInput) (hx : inRange s.params.width x = true)
      (ha : s.ioAddr < s.len)
      (e : t = { s with mem := s.mem.set s.ioAddr x, pc := s.pc + 2, status := .running,
                        inbox := rest })
  | output (rest : List HostMove) (hi : s.inbox = .ack :: rest) (hs : s.status = .suspendedForOutput)
      (e : t = { s with pc := s.pc + 2, status := .running, inbox := rest })

/-- An effect reads neither whether the run has begun nor the host's moves, and keeps both. -/
theorem effectOf_begin_inbox (i : Instr) (s : State) (moves : List HostMove) :
    effectOf i (begin { s with inbox := moves }) =
      { effectOf i s with started := true, inbox := moves } := by
  cases i <;> rfl

theorem checksOf_inbox (i : Instr) (s : State) (moves : List HostMove) :
    checksOf i { s with inbox := moves } = checksOf i s := by
  cases i <;> rfl

/-- A Running engine's own step, whichever of the host's moves are left. -/
theorem stepCase_of_runStep {s t : State} {moves : List HostMove} (hr : s.status = .running)
    (hm : MovesLeft s moves) (h : runStep (begin { s with inbox := moves }) = .next t) :
    StepCase s t := by
  rcases runStep_begin_inv h with ⟨hl, rfl⟩ | ⟨r, rfl⟩ | ⟨hl, i, hd, hf, rfl⟩
  · exact .pastEnd moves hm hr hl rfl
  · exact .fault moves hm r true (.inl hr) nofun rfl
  · rw [checksOf_begin, checksOf_inbox] at hf
    exact .effect moves hm hr hl i hd hf (effectOf_begin_inbox i s moves)

/-- A move of the host other than a step by hand. -/
theorem stepCase_of_hostMove {s t : State} {m : HostMove} {rest : List HostMove}
    (hi : s.inbox = m :: rest) (hm : m ≠ .letStep) (h : hostMove m { s with inbox := rest } = .next t) :
    StepCase s t := by
  have hleft : MovesLeft s rest := .inr ⟨m, hi⟩
  rcases hostMove_inv h with ⟨p, rfl, hl, hv, rfl⟩ | ⟨n, rfl, hr, hs, ⟨-, rfl⟩ | ⟨hlow, hmax, rfl⟩⟩ |
    ⟨hl, -⟩ | ⟨x, rfl, hs, hx, ⟨ha, rfl⟩ | ⟨-, rfl⟩⟩ | ⟨rfl, hs, rfl⟩ | ⟨rfl, hs, rfl⟩
  · exact .reset p rest hi hl hv rfl
  · exact .fault rest hleft _ s.started (.inl hr) id rfl
  · exact .grow n rest hi hr hs hlow hmax rfl
  · exact absurd hl hm
  · exact .input x rest hi hs hx ha rfl
  · exact .fault rest hleft _ s.started (.inr ⟨hs, .inl ⟨x, hi⟩⟩) id rfl
  · exact .fault rest hleft _ s.started (.inr ⟨hs, .inr hi⟩) id rfl
  · exact .output rest hi hs rfl

theorem stepCase_of_step {s t : State} (h : step s = .next t) : StepCase s t := by
  cases step_transition h with
  | idle hs e =>
    rcases e with rfl | ⟨m, rest, hi, rfl⟩
    · exact .idle t.inbox (.inl rfl) hs rfl
    · exact .idle rest (.inr ⟨m, hi⟩) hs rfl
  | run hr u hu hrun =>
    rcases hu with rfl | ⟨rest, hi, rfl⟩
    · exact stepCase_of_runStep (moves := u.inbox) hr (.inl rfl) hrun
    · exact stepCase_of_runStep hr (.inr ⟨_, hi⟩) hrun
  | host m rest hi hm hmove => exact stepCase_of_hostMove hi hm hmove

/-! ### The host's pending moves -/

theorem MovesLeft.eq_or_tail {s : State} {moves : List HostMove} (h : MovesLeft s moves) :
    moves = s.inbox ∨ moves = s.inbox.tail := by
  rcases h with h | ⟨m, hm⟩
  · exact .inl h
  · exact .inr (by rw [hm, List.tail_cons])

theorem replyAwaited_of_input {s : State} {m : HostMove} {rest : List HostMove}
    (hs : s.status = .suspendedForInput) (hi : s.inbox = m :: rest)
    (hm : (∃ x, m = .value x) ∨ m = .exhausted) : replyAwaited s = true := by
  unfold replyAwaited
  rw [hs, hi]
  rcases hm with ⟨x, rfl⟩ | rfl <;> rfl

theorem replyAwaited_of_output {s : State} {rest : List HostMove} (hs : s.status = .suspendedForOutput)
    (hi : s.inbox = .ack :: rest) : replyAwaited s = true := by
  unfold replyAwaited
  rw [hs, hi]

theorem replyAwaited_of_ended {s : State} (h : s.status = .halted ∨ s.status = .faulted) :
    replyAwaited s = false := by
  unfold replyAwaited
  rcases h with h | h <;> rw [h]

theorem resetPending_of_reset {s : State} {p : List Int} {rest : List HostMove}
    (hi : s.inbox = .reset p :: rest) : resetPending s = true :=
  resetPending_iff.2 ⟨p, rest, hi⟩

/-! ### The effect of an instruction on the cursor and on what the host sees -/

/-- Where no jump is taken, the effect advances the cursor by the instruction's cells, or leaves it where it
suspends the engine or halts it (spec/10_state.md R22). -/
theorem effectOf_pc_of_not_jump {i : Instr} {s : State} (hin : ∀ m, i ≠ .inp m) (hout : ∀ m, i ≠ .out m)
    (hhalt : i ≠ .halt) (ht : takesJump i s = false) : (effectOf i s).pc = s.pc + i.cells := by
  cases i with
  | inp m1 => exact absurd rfl (hin m1)
  | out m1 => exact absurd rfl (hout m1)
  | halt => exact absurd rfl hhalt
  | jt m1 m2 => rw [effectOf_jump (.inl rfl), ht]; rfl
  | jf m1 m2 => rw [effectOf_jump (.inr rfl), ht]; rfl
  | add | mul | lt | eq | arb => rfl

/-- A jump that is taken has a target that is not negative, and the cursor is that target
(spec/43_jumps.md R184). -/
theorem effectOf_pc_of_jump {i : Instr} {s : State} (hf : firstFailure (checksOf i s) = none)
    (ht : takesJump i s = true) :
    ∃ m1 m2, (i = .jt m1 m2 ∨ i = .jf m1 m2) ∧ ((effectOf i s).pc : Int) = operand s m2 2 := by
  have hjump : ∃ m1 m2, i = .jt m1 m2 ∨ i = .jf m1 m2 := by
    cases i with
    | jt m1 m2 => exact ⟨m1, m2, .inl rfl⟩
    | jf m1 m2 => exact ⟨m1, m2, .inr rfl⟩
    | _ => cases ht
  obtain ⟨m1, m2, hj⟩ := hjump
  rw [checksOf_jump hj] at hf
  have hsign : ¬ operand s m2 2 < 0 := by
    have hlast := (firstFailure_append_none.1 hf).2
    simpa [firstFailure, ht] using hlast
  refine ⟨m1, m2, hj, ?_⟩
  rw [effectOf_jump hj, if_pos ht]
  exact Int.toNat_of_nonneg (Int.not_lt.1 hsign)

/-- The effects that suspend the engine or halt it leave the cursor (spec/42_input_output.md R151). -/
theorem effectOf_running {i : Instr} {s : State} (hr : s.status = .running)
    (hpc : (effectOf i s).pc ≠ s.pc) : (effectOf i s).status = .running ∧
      (∀ m, i ≠ .inp m) ∧ (∀ m, i ≠ .out m) ∧ i ≠ .halt := by
  cases i with
  | inp | out | halt => exact absurd rfl hpc
  | _ => exact ⟨hr, nofun, nofun, nofun⟩

theorem event_of_running {s : State} (hr : s.status = .running) : s.event = none := by
  rw [State.event, hr]

/-- Only IN and OUT emit (spec/42_input_output.md R161). -/
theorem effectOf_event {i : Instr} {s : State} {e : Event} (hr : s.status = .running)
    (h : (effectOf i s).event = some e) :
    ∃ m, (i = .inp m ∧ e = .read) ∨ (i = .out m ∧ e = .write (operand s m 1)) := by
  cases i with
  | inp m1 => exact ⟨m1, .inl ⟨rfl, (Option.some.inj h).symm⟩⟩
  | out m1 => exact ⟨m1, .inr ⟨rfl, (Option.some.inj h).symm⟩⟩
  | halt => cases h
  | _ => cases (event_of_running hr).symm.trans h

/-! ### A word that decodes to HALT (spec/30_encoding.md R88, R93) -/

theorem halt_word {rd : ReservedDigits} {w : Int} (h : decode rd w = .ok .halt) :
    0 ≤ w ∧ w % 100 = 99 := by
  by_cases hneg : w < 0
  · rw [decode_negative rd hneg] at h; cases h
  · obtain ⟨n, rfl⟩ := Int.eq_ofNat_of_zero_le (Int.not_lt.1 hneg)
    rw [decode_nat] at h
    have ho : n % 100 = 99 := opcode_of_decodeNat h
    omega

/-! ### A store is seen by the next step (spec/20_memory.md R71) -/

theorem lit_of_lt {s : State} {k : Nat} (h : s.pc + k < s.len) : lit s k = .ok (s.mem.get (s.pc + k)) := by
  rw [lit_eq, if_pos (valid_lit.2 h), literal]

/-- In a Running engine that makes the next step, a cell that exists is the word or the literal it uses. -/
theorem nextStepUses_of_get {t : State} {d : Nat} {v : Int} (hr : t.status = .running)
    (hi : hostIdle t = true) (hd : d < t.len) (hv : t.mem.get d = v) : nextStepUses t d v := by
  subst hv
  refine ⟨?_, ?_⟩
  · rintro rfl
    exact ⟨fun j hj => step_of_decode_ok hr hi hd hj, fun r hj => step_of_decode_error hr hi hd hj⟩
  · rintro k rfl
    exact lit_of_lt hd

/-- Whether the engine makes the next step depends on the status and on the host's moves alone. -/
theorem hostIdle_congr {s t : State} (hs : t.status = s.status) (hi : t.inbox = s.inbox) :
    hostIdle t = hostIdle s := by
  have hdue : ∀ m, moveIsDue t m = moveIsDue s m := fun m => by cases m <;> simp [moveIsDue, hs]
  simp only [hostIdle, hi, hdue]

/-! ### The statements -/

/-- Settles O24: the fetch gives the instruction, and the step dispatches it. -/
theorem stepRunsDecodedInstruction : Obligations.StepRunsDecodedInstruction :=
  fun _ _ hr hi hl hd => step_of_decode_ok hr hi hl hd

/-- Settles O29: of the kinds of transition, an engine that is not Running has the idle one, its reset, and
those of the reply it waits for. -/
theorem onlyRunningEnginesStep : Obligations.OnlyRunningEnginesStep := by
  intro s hs
  refine ⟨engineStep_idle hs, fun hi => ?_, fun t h hst => ?_, fun t hreply hreset h => ?_,
    replyAwaited_of_ended⟩
  · rw [step_idle (by rw [hostIdle, hi]), engineStep_idle hs]
  · cases stepCase_of_step h with
    | idle _ _ _ e => exact absurd (e ▸ rfl) hst
    | pastEnd _ _ hr | effect _ _ hr | grow _ _ _ hr => exact absurd hr hs
    | fault _ _ _ _ hin =>
      obtain ⟨hin, hx⟩ := hin.resolve_left hs
      rcases hx with ⟨x, hi⟩ | hi
      · exact ⟨_, _, hi, .inr (.inl ⟨hin, .inl ⟨x, rfl⟩⟩)⟩
      · exact ⟨_, _, hi, .inr (.inl ⟨hin, .inr rfl⟩)⟩
    | reset p _ hi => exact ⟨_, _, hi, .inl ⟨p, rfl⟩⟩
    | input x _ hi hin => exact ⟨_, _, hi, .inr (.inl ⟨hin, .inl ⟨x, rfl⟩⟩)⟩
    | output _ hi hout => exact ⟨_, _, hi, .inr (.inr ⟨hout, rfl⟩)⟩
  · cases stepCase_of_step h with
    | idle _ hm _ e => rcases hm.eq_or_tail with rfl | rfl <;> simp [e]
    | pastEnd _ _ hr | effect _ _ hr | grow _ _ _ hr => exact absurd hr hs
    | fault _ _ _ _ hin =>
      obtain ⟨hin, hx⟩ := hin.resolve_left hs
      rcases hx with ⟨x, hi⟩ | hi
      · simp [replyAwaited_of_input hin hi (.inl ⟨x, rfl⟩)] at hreply
      · simp [replyAwaited_of_input hin hi (.inr rfl)] at hreply
    | reset _ _ hi => simp [resetPending_of_reset hi] at hreset
    | input x _ hi hin => simp [replyAwaited_of_input hin hi (.inl ⟨x, rfl⟩)] at hreply
    | output _ hi hout => simp [replyAwaited_of_output hout hi] at hreply

/-- Settles O30: from Running every status is legal, and a suspended engine goes back to Running or, at its
input, to Faulted. -/
theorem statusTransitionsAreLegal : Obligations.StatusTransitionsAreLegal := by
  intro s t hreset h
  cases stepCase_of_step h with
  | idle _ _ _ e => exact .inl (e ▸ rfl)
  | pastEnd _ _ hr | effect _ _ hr | grow _ _ _ hr => exact .inr (by rw [hr]; rfl)
  | fault _ _ _ _ hs _ e =>
    subst e
    rcases hs with hr | ⟨hin, -⟩
    · exact .inr (by rw [hr]; rfl)
    · exact .inr (by rw [hin]; rfl)
  | reset _ _ hi => simp [resetPending_of_reset hi] at hreset
  | input _ _ _ hin _ _ e => exact .inr (by rw [hin, e]; rfl)
  | output _ _ hout e => exact .inr (by rw [hout, e]; rfl)

/-- Settles O32: of the kinds of transition only growth and reset write the length, and growth raises it. -/
theorem lengthFixedDuringRun : Obligations.LengthFixedDuringRun := by
  refine ⟨fun s t h hreset => ?_, fun i s t h => ?_⟩
  · have keeps : t.len = s.len → s.len ≤ t.len ∧
        (t.len ≠ s.len → s.started = false ∧ ∃ n rest, s.inbox = .grow n :: rest) :=
      fun e => ⟨e.ge, fun hne => absurd e hne⟩
    cases stepCase_of_step h with
    | idle _ _ _ e | pastEnd _ _ _ _ e | fault _ _ _ _ _ _ e | input _ _ _ _ _ _ e
    | output _ _ _ e => exact keeps (e ▸ rfl)
    | effect _ _ _ _ i _ _ e => exact keeps (e ▸ effectOf_len i s)
    | reset _ _ hi => simp [resetPending_of_reset hi] at hreset
    | grow n rest hi _ hs hlow _ e => exact ⟨e ▸ (by simp; omega), fun _ => ⟨hs, n, rest, hi⟩⟩
  · rcases exec_inv h with ⟨r, -, rfl⟩ | ⟨-, rfl⟩
    · rfl
    · exact effectOf_len i s

/-- Settles O33: the step past the end, or the effect of HALT. -/
theorem haltsAreExplicitOrImplicit : Obligations.HaltsAreExplicitOrImplicit := by
  intro s t hr h ht
  cases stepCase_of_step h with
  | idle _ _ hs => exact absurd hr hs
  | pastEnd _ _ _ hl e => subst e; exact ⟨rfl, rfl, rfl, .inl hl⟩
  | fault _ _ _ _ _ _ e | reset _ _ _ _ _ e => subst e; cases ht
  | effect _ _ _ hl i hd _ e =>
    subst e
    rcases effectOf_status i s with hst | ⟨m, -, hst⟩ | ⟨m, -, hst⟩ | ⟨rfl, -⟩
    · cases (hst.trans hr).symm.trans ht
    · cases hst.symm.trans ht
    · cases hst.symm.trans ht
    · exact ⟨rfl, rfl, rfl, .inr ⟨hl, halt_word hd⟩⟩
  | grow _ _ _ _ _ _ _ e => subst e; cases hr.symm.trans ht
  | input _ _ _ hs | output _ _ hs => cases hr.symm.trans hs

/-- Settles O34: the effects that move the cursor, the completions of IN and OUT, and reset. -/
theorem cursorMoves : Obligations.CursorMoves := by
  intro s t h hpc
  cases stepCase_of_step h with
  | idle _ _ _ e | pastEnd _ _ _ _ e | fault _ _ _ _ _ _ e | grow _ _ _ _ _ _ _ e =>
    exact absurd (e ▸ rfl) hpc
  | effect _ _ hr hl i hd hf e =>
    subst e
    obtain ⟨hst, hin, hout, hhalt⟩ := effectOf_running hr hpc
    exact .inr (.inl ⟨hr, hst, hl, i, hd, hin, hout, hhalt, effectOf_pc_of_not_jump hin hout hhalt,
      effectOf_pc_of_jump hf⟩)
  | reset _ _ hi _ _ e => exact .inl ⟨resetPending_of_reset hi, e ▸ rfl⟩
  | input x _ hi hs _ _ e =>
    exact .inr (.inr ⟨.inl hs, replyAwaited_of_input hs hi (.inl ⟨x, rfl⟩), e ▸ rfl, e ▸ rfl⟩)
  | output _ hi hs e =>
    exact .inr (.inr ⟨.inr hs, replyAwaited_of_output hs hi, e ▸ rfl, e ▸ rfl⟩)

/-- Settles O35: the step leaves a Running engine whose host makes no move, with the value in a cell that
exists. -/
theorem storedWordIsFetchedNext : Obligations.StoredWordIsFetchedNext := by
  refine ⟨fun s i d v hr hi hl hd hf hst => ?_, fun s x rest hs hi ha hx hidle => ?_⟩
  · have hstep : step s = .next { s with mem := s.mem.set d v, pc := s.pc + 4, started := true } := by
      rw [step_of_decode_ok hr hi hl hd]
      have hf' : firstFailure (checksOf i (begin s)) = none := by rw [checksOf_begin, hf]
      refine (exec_of_no_failure hf').trans ?_
      rw [show begin s = begin { s with inbox := s.inbox } from rfl, effectOf_begin_inbox,
        effectOf_of_storedBy hst]
    obtain ⟨m3, hw, rfl⟩ := writable_of_storedBy hf hst
    have hlt : target s m3 3 < s.len := target_lt hw
    exact ⟨_, hstep, rfl, hr, nextStepUses_of_get hr ((hostIdle_congr rfl rfl).trans hi) hlt
      (Memory.get_set_same _ _ _)⟩
  · obtain ⟨hstep, -⟩ := inputCompletion.1 s x rest hs hi
    exact ⟨_, hstep ha hx, rfl, rfl,
      nextStepUses_of_get rfl ((hostIdle_congr rfl rfl).trans hidle) ha (Memory.get_set_same _ _ _)⟩

/-- Settles O43: of the kinds of transition from Running only an effect can leave an event. -/
theorem onlyInputAndOutputEmit : Obligations.OnlyInputAndOutputEmit := by
  intro s t e hr h he
  cases stepCase_of_step h with
  | idle _ _ hs => exact absurd hr hs
  | pastEnd _ _ _ _ e | fault _ _ _ _ _ _ e | reset _ _ _ _ _ e => subst e; cases he
  | grow _ _ _ _ _ _ _ e => subst e; cases (event_of_running hr).symm.trans he
  | effect _ _ _ _ i hd hf e =>
    subst e
    obtain ⟨m, ⟨rfl, rfl⟩ | ⟨rfl, rfl⟩⟩ := effectOf_event hr he
    · exact ⟨m, .inl ⟨hd, destination_none.1 hf, rfl⟩⟩
    · exact ⟨m, .inr ⟨hd, source_none.1 hf, rfl⟩⟩
  | input _ _ _ hs | output _ _ hs => cases hr.symm.trans hs

end Sys2Proof.Machine
end

section
/-! PROOFS. The statements about what every transition keeps (spec/00_scope.md R6, R7; spec/10_state.md R21,
R24, R31, R32; spec/20_memory.md R50): the invariant, by the kinds of transition, and the parameters. -/

namespace Sys2Proof.Machine

/-! ### What the parameters' constraints give (spec/00_scope.md R6, R7) -/

section Bounds
variable {s : State} (hs : s.Inv)
include hs

/-- `MEM_MAX` leaves room for four cells below `INT_MAX`. -/
theorem State.Inv.memMax_le : (s.params.memMax : Int) ≤ intMax s.params.width - 4 := by
  have hp := hs.params
  simp only [paramsOk, Bool.and_eq_true, decide_eq_true_eq] at hp
  obtain ⟨-, hmax⟩ := hp
  exact hmax

/-- The cursor fits a cell after an advance from inside memory. -/
theorem State.Inv.cursor_le {n : Nat} (hn : n ≤ s.len + 4) : (n : Int) ≤ intMax s.params.width := by
  have hmax := hs.memMax_le
  have hlen := hs.length
  omega

theorem State.Inv.inRange_one : inRange s.params.width 1 = true := by
  have hmax := hs.memMax_le
  have hmin := (inRange_iff.1 (inRange_zero s.params.width)).1
  exact inRange_iff.2 ⟨by omega, by omega⟩

/-- The invariant does not speak of the host's moves. -/
theorem State.Inv.withInbox (moves : List HostMove) : { s with inbox := moves }.Inv :=
  { hs with }

end Bounds

/-! ### Each effect keeps the invariant -/

section Effect
variable {i : Instr} {s : State} (hs : s.Inv) (hf : firstFailure (checksOf i s) = none)
include hs hf

/-- What an instruction stores fits a cell: a checked result, or a truth value. -/
theorem inRange_storedBy {d : Nat} {v : Int} (h : storedBy i s = some (d, v)) :
    inRange s.params.width v = true := by
  have htruth : ∀ p : Prop, [Decidable p] → inRange s.params.width (if p then 1 else 0) = true := by
    intro p _
    split
    · exact hs.inRange_one
    · exact inRange_zero _
  cases i with
  | add | mul => cases h; exact firstFailure_overflow_none.1 (firstFailure_append_none.1 hf).2
  | lt | eq => cases h; exact htruth _
  | _ => cases h

variable (hr : s.status = .running)
include hr

theorem effectOf_storing_inv {d : Nat} {v : Int} (h : storedBy i s = some (d, v)) :
    { effectOf i s with started := true }.Inv := by
  obtain ⟨m3, hw, rfl⟩ := writable_of_storedBy hf h
  have hpc := writable_lit hw
  rw [effectOf_of_storedBy h]
  exact { hs with
    canonical := Memory.wf_set _ _ hs.canonical
    cells := Memory.fits_set (target_lt hw) (inRange_storedBy hs hf h) hs.cells
    cursor := hs.cursor_le (n := s.pc + 4) (by omega)
    input := fun h => nomatch hr.symm.trans h
    output := fun h => nomatch hr.symm.trans h
    record := fun h => nomatch hr.symm.trans h
    unstarted := nofun }

/-- A jump taken goes to a cell value; one not taken advances from inside memory. -/
theorem effectOf_jump_inv {m1 m2 : Mode} (hj : i = .jt m1 m2 ∨ i = .jf m1 m2) :
    { effectOf i s with started := true }.Inv := by
  rw [checksOf_jump hj] at hf
  obtain ⟨h12, -⟩ := firstFailure_append_none.1 hf
  obtain ⟨-, h2⟩ := firstFailure_append_none.1 h12
  have hpc := readable_lit (source_none.1 h2)
  have htarget := inRange_iff.1 (inRange_operand hs.cells m2 2)
  have hcursor : ((if takesJump i s = true then (operand s m2 2).toNat else s.pc + 3 : Nat) : Int) ≤
      intMax s.params.width := by
    split
    · have := hs.cursor_le (n := 0) (by omega)
      omega
    · exact hs.cursor_le (by omega)
  rw [effectOf_jump hj]
  exact { hs with
    cursor := hcursor
    input := fun h => nomatch hr.symm.trans h
    output := fun h => nomatch hr.symm.trans h
    record := fun h => nomatch hr.symm.trans h
    unstarted := nofun }

theorem effectOf_inv : { effectOf i s with started := true }.Inv := by
  cases i with
  | add | mul | lt | eq => exact effectOf_storing_inv hs hf hr rfl
  | jt => exact effectOf_jump_inv hs hf hr (.inl rfl)
  | jf => exact effectOf_jump_inv hs hf hr (.inr rfl)
  | inp m1 =>
    have hw := destination_none.1 hf
    exact { hs with
      input := fun _ => ⟨target_lt hw, writable_lit hw⟩, output := nofun, record := nofun
      unstarted := nofun }
  | out m1 =>
    have hread := source_none.1 hf
    exact { hs with
      input := nofun, output := fun _ => ⟨inRange_operand hs.cells m1 1, readable_lit hread⟩
      record := nofun, unstarted := nofun }
  | arb m1 =>
    obtain ⟨h1, hv⟩ := firstFailure_append_none.1 hf
    have hpc := readable_lit (source_none.1 h1)
    exact { hs with
      cursor := hs.cursor_le (n := s.pc + 2) (by omega)
      base := firstFailure_overflow_none.1 hv
      input := fun h => nomatch hr.symm.trans h
      output := fun h => nomatch hr.symm.trans h
      record := fun h => nomatch hr.symm.trans h
      unstarted := nofun }
  | halt => exact { hs with input := nofun, output := nofun, record := nofun, unstarted := nofun }

end Effect

/-! ### Every transition keeps the invariant -/

/-- A suspended engine has begun its run. -/
theorem State.Inv.started_of_suspended {s : State} (hs : s.Inv)
    (h : s.status = .suspendedForInput ∨ s.status = .suspendedForOutput) : s.started ≠ false := by
  intro hst
  obtain ⟨-, -, hrun | hfault⟩ := hs.unstarted hst
  · rcases h with h | h <;> cases hrun.symm.trans h
  · rcases h with h | h <;> cases hfault.symm.trans h

theorem StepCase.inv {s t : State} (h : StepCase s t) (hs : s.Inv) : t.Inv := by
  cases h with
  | idle moves _ _ e => subst e; exact hs.withInbox moves
  | pastEnd _ _ _ _ e =>
    subst e
    exact { hs with input := nofun, output := nofun, record := nofun, unstarted := nofun }
  | fault _ _ r b _ hb e =>
    subst e
    refine { hs with input := nofun, output := nofun, record := fun _ => rfl, unstarted := fun h => ?_ }
    obtain ⟨hpc, hrb, -⟩ := hs.unstarted (hb h)
    exact ⟨hpc, hrb, .inr rfl⟩
  | effect moves _ hr _ i _ hf e => subst e; exact (effectOf_inv hs hf hr).withInbox moves
  | reset p rest _ hl hv e => subst e; exact resetWith_inv hs.params hl hv
  | grow n _ _ hr _ hlow hmax e =>
    subst e
    exact { hs with
      cells := Memory.fits_mono (by simp only; omega) hs.cells
      length := by simp only; omega
      input := fun h => nomatch hr.symm.trans h
      output := fun h => nomatch hr.symm.trans h }
  | input x _ _ hin hx ha e =>
    subst e
    obtain ⟨-, hpc⟩ := hs.input hin
    exact { hs with
      canonical := Memory.wf_set _ _ hs.canonical
      cells := Memory.fits_set ha hx hs.cells
      cursor := hs.cursor_le (n := s.pc + 2) (by omega)
      input := nofun, output := nofun, record := nofun
      unstarted := fun h => absurd h (hs.started_of_suspended (.inl hin)) }
  | output _ _ hout e =>
    subst e
    obtain ⟨-, hpc⟩ := hs.output hout
    exact { hs with
      cursor := hs.cursor_le (n := s.pc + 2) (by omega)
      input := nofun, output := nofun, record := nofun
      unstarted := fun h => absurd h (hs.started_of_suspended (.inr hout)) }

/-! ### No transition changes the parameters -/

theorem StepCase.params {s t : State} (h : StepCase s t) : t.params = s.params := by
  cases h with
  | effect _ _ _ _ i _ _ e => subst e; exact effectOf_params i s
  | idle _ _ _ e | pastEnd _ _ _ _ e | fault _ _ _ _ _ _ e | reset _ _ _ _ _ e
  | grow _ _ _ _ _ _ _ e | input _ _ _ _ _ _ e | output _ _ _ e => subst e; rfl

/-! ### The statements -/

/-- Settles O52: the reset state is what reset with the empty image leaves. -/
theorem resetMeetsInvariant : Obligations.ResetMeetsInvariant :=
  resetWith_inv (s := State.reset) (p := []) (by decide) (Nat.zero_le _) rfl

/-- Settles O53, by the kinds of transition. -/
theorem stepKeepsInvariant : Obligations.StepKeepsInvariant :=
  fun _ _ hs h => (stepCase_of_step h).inv hs

/-- Settles O54, by induction over the steps. -/
theorem parametersNeverChange : Obligations.ParametersNeverChange := by
  intro s t n
  exact repeatStep_induction (R := fun a c : State => c.params = a.params) (fun _ => rfl)
    fun _ _ _ hab hbc => hbc.trans (stepCase_of_step hab).params

end Sys2Proof.Machine
end

section
/-! PROOFS. The statements about the host's window on the engine and about reset (spec/10_state.md R29, R32,
R36; spec/20_memory.md R73; spec/42_input_output.md R162; spec/70_reset_and_hazards.md R250). -/

namespace Sys2Proof.Machine

/-! ### The windows -/

theorem mayInspect_iff {s : State} : mayInspect s = true ↔
    (s.status = .running ∧ s.started = false) ∨ s.status = .halted ∨ s.status = .faulted := by
  simp [mayInspect, beforeRun_iff, ended]

/-- A read that its window allows gives the value, and one outside it gives none. -/
theorem guarded_eq_ok {α : Type} {p : Prop} [Decidable p] {x v : α} {r : Refusal} :
    (if p then Except.ok x else Except.error r) = .ok v ↔ v = x ∧ p := by
  by_cases hp : p <;> simp [hp, eq_comm]

theorem inspectCell_eq_ok {s : State} {a : Nat} {v : Int} :
    inspectCell a s = .ok v ↔ v = s.mem.get a ∧ a < s.len ∧ mayInspect s = true := by
  by_cases hw : mayInspect s = true
  · simp only [inspectCell, hw, if_true, guarded_eq_ok, and_true]
  · simp [inspectCell, hw]

/-! ### Reset -/

/-- An image that is a possible input is loaded (spec/70_reset_and_hazards.md R250). -/
theorem bootImage_accepted {s : State} {p : List Int} (hl : p.length ≤ s.params.memMax)
    (hv : ∀ v ∈ p, inRange s.params.width v = true) : bootImage p s = .next (resetWith p s) := by
  rw [bootImage, if_neg (Nat.not_lt.2 hl), if_pos (List.all_eq_true.2 hv)]

/-- The parameters and the host's moves are all that reset keeps. -/
theorem resetWith_congr {s s' : State} (p : List Int) (hp : s.params = s'.params)
    (hi : s.inbox = s'.inbox) : resetWith p s = resetWith p s' := by
  simp only [resetWith, hp, hi]

/-! ### The statements -/

/-- Settles O42: each reply asks for its suspension. -/
theorem misplacedRepliesAreRefused : Obligations.MisplacedRepliesAreRefused :=
  fun _ _ => ⟨fun hs => ⟨if_neg hs, if_neg hs⟩, fun hs => if_neg hs⟩

/-- Settles O44, one accessor after the other. -/
theorem inspectionWindows : Obligations.InspectionWindows := by
  intro s a
  refine ⟨fun v => ?_, fun v => ?_, fun v => guarded_eq_ok, fun v => guarded_eq_ok, fun v => guarded_eq_ok⟩
  · rw [inspectCell_eq_ok, mayInspect_iff]
  · rw [inspectRegisters, guarded_eq_ok, mayInspect_iff]

/-- Settles O49: the registers are written by `resetWith`, and the cells are the image's from index 0. -/
theorem resetLoadsImage : Obligations.ResetLoadsImage := by
  intro s p hl hv
  refine ⟨resetWith p s, bootImage_accepted hl hv, rfl, rfl, rfl, rfl, rfl, rfl, fun i => ?_⟩
  have hget := Memory.get_ofImage p 0 i
  rwa [Nat.zero_add] at hget

/-- Settles O50: the checks of the image read the parameters alone, and `resetWith` keeps no more than them and
the host's moves. -/
theorem resetForgets : Obligations.ResetForgets := by
  intro s s' p hp hi
  simp only [hostMove, bootImage, hp, resetWith_congr p hp hi]

/-- Settles O51: the fields as they are written, and the implicit halt of an empty memory. -/
theorem resetStateValues : Obligations.ResetStateValues :=
  ⟨rfl, rfl, rfl, rfl, rfl, rfl, rfl, step_past_end rfl rfl le_rfl⟩

end Sys2Proof.Machine
end

section
/-! PROOFS. The statements about the host adapters (spec/42_input_output.md R163 to R168) and about several
engines (spec/60_exceptions.md R232, R233; spec/20_memory.md R74). -/

namespace Sys2Proof.Machine

/-! ### Transitions of an engine apart from its pending moves -/

theorem stepCase_of_engineStep {s t : State} (h : engineStep s = .next t) : StepCase s t := by
  by_cases hr : s.status = .running
  · rw [engineStep_running hr] at h
    exact stepCase_of_runStep (moves := s.inbox) hr (.inl rfl) h
  · rw [engineStep_idle hr] at h
    cases h
    exact .idle s.inbox (.inl rfl) hr rfl

/-- A move that a driver makes is the one of an engine that has it pending, so it keeps what a step keeps. -/
theorem hostMove_keeps {m : HostMove} {s t : State} (hm : m ≠ .letStep) (h : hostMove m s = .next t)
    (hs : s.Inv) : t.Inv ∧ t.params = s.params := by
  have hcase : StepCase { s with inbox := m :: s.inbox } t := stepCase_of_hostMove rfl hm h
  exact ⟨hcase.inv (hs.withInbox _), hcase.params⟩

/-! ### The scripted convention (spec/42_input_output.md R163) -/

/-- The engine of a scripted run meets the invariant and every input still to give fits one of its cells. -/
def Scripted.Ready (r : Scripted) : Prop :=
  r.engine.Inv ∧ ∀ x ∈ r.queue, inRange r.engine.params.width x = true

/-- The inputs fit a cell of the engine that a turn leaves, as the parameters stay. -/
theorem Scripted.Ready.next {r : Scripted} (hr : r.Ready) {t : State} {q o : List Int}
    (ht : t.Inv ∧ t.params = r.engine.params) (hq : ∀ x ∈ q, x ∈ r.queue) :
    Scripted.Ready { engine := t, queue := q, outputs := o } := by
  obtain ⟨-, hfits⟩ := hr
  obtain ⟨hinv, hp⟩ := ht
  exact ⟨hinv, fun x hx => hp ▸ hfits x (hq x hx)⟩

/-- One turn of a run that is ready answers a run that is ready. -/
theorem scriptedStep_ready {r : Scripted} (hr : r.Ready) : ∃ e, scriptedStep r = .next e ∧ e.Ready := by
  obtain ⟨s, q, o⟩ := r
  have ⟨hinv, hfits⟩ := hr
  unfold scriptedStep
  cases hst : s.status <;> dsimp only
  case running =>
    obtain ⟨t, ht⟩ := engineStep_next s
    have hcase := stepCase_of_engineStep ht
    rw [ht]
    exact ⟨_, rfl, hr.next ⟨hcase.inv hinv, hcase.params⟩ fun _ hx => hx⟩
  case suspendedForInput =>
    cases q with
    | nil =>
      have hmove := replyExhausted_suspended hst
      rw [hmove]
      exact ⟨_, rfl, hr.next (hostMove_keeps (m := .exhausted) nofun hmove hinv) fun _ hx => hx⟩
    | cons x q =>
      obtain ⟨hlatch, -⟩ := hinv.input hst
      have hmove := replyValue_inRange hst hlatch (hfits x List.mem_cons_self)
      dsimp only
      rw [hmove]
      exact ⟨_, rfl, hr.next (hostMove_keeps (m := .value x) nofun hmove hinv) fun _ =>
        List.mem_cons_of_mem x⟩
  case suspendedForOutput =>
    have hmove := replyAck_suspended hst
    rw [hmove]
    exact ⟨_, rfl, hr.next (hostMove_keeps (m := .ack) nofun hmove hinv) fun _ hx => hx⟩
  case halted => exact ⟨_, rfl, hr⟩
  case faulted => exact ⟨_, rfl, hr⟩

theorem runScripted_ready {r : Scripted} (hr : r.Ready) (n : Nat) :
    ∃ e, runScripted n r = .next e ∧ e.Ready := by
  induction n generalizing r with
  | zero => exact ⟨r, rfl, hr⟩
  | succ n ih =>
    obtain ⟨b, hb, hready⟩ := scriptedStep_ready hr
    obtain ⟨e, he, hend⟩ := ih hready
    exact ⟨e, (repeatStep_succ n hb).trans he, hend⟩

/-- A turn takes at most the head of the queue and appends at most one output. -/
theorem scriptedStep_queues {r e : Scripted} (h : scriptedStep r = .next e) :
    ∃ used emitted, r.queue = used ++ e.queue ∧ e.outputs = r.outputs ++ emitted := by
  obtain ⟨s, q, o⟩ := r
  have stay : ∃ used emitted, q = used ++ q ∧ o = o ++ emitted := ⟨[], [], rfl, (List.append_nil o).symm⟩
  unfold scriptedStep at h
  cases hst : s.status <;> simp only [hst] at h
  case running => obtain ⟨t, -, rfl⟩ := carry_inv h; exact stay
  case suspendedForInput =>
    cases q with
    | nil => obtain ⟨t, -, rfl⟩ := carry_inv h; exact stay
    | cons x q => obtain ⟨t, -, rfl⟩ := carry_inv h; exact ⟨[x], [], rfl, (List.append_nil o).symm⟩
  case suspendedForOutput => obtain ⟨t, -, rfl⟩ := carry_inv h; exact ⟨[], [s.ioVal], rfl, rfl⟩
  case halted => cases h; exact stay
  case faulted => cases h; exact stay

/-! ### Stepping to the next output (spec/42_input_output.md R168) -/

/-- The engine that `next_output` leaves gives its answer. -/
theorem nextOutput_inv {σ : Type} {take : σ → Option (Int × σ)} {n : Nat} {r e : Supplied σ}
    {o : NextOutput} (h : nextOutput take n r = .next (o, e)) :
    repeatStep (awaitStep take) n { r with engine := finishOutput r.engine } = .next e ∧
      o = nextAnswer e.engine := by
  obtain ⟨e', hrun, he⟩ := carry_inv h
  cases he
  exact ⟨hrun, rfl⟩

theorem nextAnswer_some {s : State} {v : Int} (h : nextAnswer s = .some v) :
    s.status = .suspendedForOutput ∧ s.event = some (.write v) := by
  rcases nextAnswer_inv s with ⟨hs, ha⟩ | ⟨-, ha⟩ | ⟨-, ha⟩ | ⟨-, ha⟩ <;> cases ha.symm.trans h
  exact ⟨hs, by rw [State.event, hs]⟩

theorem nextAnswer_none {s : State} (h : nextAnswer s = .none) : s.status = .halted := by
  rcases nextAnswer_inv s with ⟨-, ha⟩ | ⟨hs, -⟩ | ⟨-, ha⟩ | ⟨-, ha⟩
  · cases ha.symm.trans h
  · exact hs
  · cases ha.symm.trans h
  · cases ha.symm.trans h

theorem nextAnswer_failed {s : State} {c : Cause} {p : Nat} {a : Int}
    (h : nextAnswer s = .failed c p a) :
    s.status = .faulted ∧ s.fcause = c ∧ s.fpc = p ∧ s.faddr = a := by
  rcases nextAnswer_inv s with ⟨-, ha⟩ | ⟨-, ha⟩ | ⟨hs, ha⟩ | ⟨-, ha⟩ <;> cases ha.symm.trans h
  exact ⟨hs, rfl, rfl, rfl⟩

theorem nextAnswer_unfinished {s : State} (h : nextAnswer s = .unfinished) :
    s.status = .running ∨ s.status = .suspendedForInput := by
  rcases nextAnswer_inv s with ⟨-, ha⟩ | ⟨-, ha⟩ | ⟨-, ha⟩ | ⟨hs, -⟩
  · cases ha.symm.trans h
  · cases ha.symm.trans h
  · cases ha.symm.trans h
  · exact hs

/-- A queue is taken from its head and what was not taken is left. -/
theorem repeatStep_awaitStep_supply {n : Nat} {r e : Supplied (List Int)}
    (h : repeatStep (awaitStep takeQueue) n r = .next e) : ∃ used, r.supply = used ++ e.supply := by
  refine repeatStep_induction (R := fun r e : Supplied (List Int) => ∃ used, r.supply = used ++ e.supply)
    (fun _ => ⟨[], rfl⟩) ?_ h
  rintro a b c hab ⟨used, hu⟩
  obtain ⟨used', hu'⟩ := awaitStep_supply hab
  exact ⟨used' ++ used, by rw [hu', hu, List.append_assoc]⟩

/-- An acknowledged output is not acknowledged again. -/
theorem finishOutput_outputTaken {s : State} (hs : s.status = .suspendedForOutput) :
    finishOutput (outputTaken s) = finishOutput s := by
  simp only [finishOutput, hs, outputTaken_status]

/-! ### Independent engines (spec/60_exceptions.md R232) -/

section Engines
variable {i : Nat} {es a : List State}

theorem stepAt_absent (h : es[i]? = none) : stepAt i es = .next es := by
  rw [stepAt, h]

theorem stepAt_present {s t : State} (h : es[i]? = some s) (ht : turn s = .next t) :
    stepAt i es = .next (es.set i t) := by
  simp only [stepAt, h, ht, carry_next]

theorem stepAt_inv (h : stepAt i es = .next a) : (es[i]? = none ∧ a = es) ∨
    ∃ s t, es[i]? = some s ∧ turn s = .next t ∧ a = es.set i t := by
  cases hs : es[i]? with
  | none =>
    rw [stepAt_absent hs] at h
    cases h
    exact .inl ⟨rfl, rfl⟩
  | some s =>
    rw [stepAt, hs] at h
    obtain ⟨t, ht, rfl⟩ := carry_inv h
    exact .inr ⟨s, t, rfl, ht, rfl⟩

/-- A step of one engine leaves the others as they are. -/
theorem stepAt_frame (h : stepAt i es = .next a) {k : Nat} (hk : k ≠ i) : a[k]? = es[k]? := by
  rcases stepAt_inv h with ⟨-, rfl⟩ | ⟨s, t, -, -, rfl⟩
  · rfl
  · exact List.getElem?_set_ne hk.symm

end Engines

/-! ### The feedback ring (spec/60_exceptions.md R233) -/

/-- A pass is `next_output` of the engine whose turn it is, and goes on as its answer says. -/
theorem ringPass_of_nextOutput {fuel : Nat} {r : Ring} {m : Member} {o : NextOutput}
    {e : Supplied (List Int)} (hm : r.members[r.next]? = some m)
    (h : nextOutput takeQueue fuel ⟨m.engine, ringSupply m r.signal⟩ = .next (o, e)) :
    ringPass fuel r = .next (ringAnswer (r.keep m e.engine) o) := by
  rw [ringPass, hm]
  simp only [h, carry_next]

/-! ### The statements -/

/-- Settles O56: what each turn takes and appends, one turn after the other. -/
theorem scriptedQueuesAreOrdered : Obligations.ScriptedQueuesAreOrdered := by
  intro n r e
  refine repeatStep_induction (R := fun r e : Scripted =>
    ∃ used emitted, r.queue = used ++ e.queue ∧ e.outputs = r.outputs ++ emitted) (fun r => ?_) ?_
  · exact ⟨[], [], rfl, (List.append_nil _).symm⟩
  · rintro a b c hab ⟨used, emitted, hq, ho⟩
    obtain ⟨used', emitted', hq', ho'⟩ := scriptedStep_queues hab
    exact ⟨used' ++ used, emitted' ++ emitted, by rw [hq', hq, List.append_assoc],
      by rw [ho, ho', List.append_assoc]⟩

/-- Settles O57: every turn of a run that is ready leaves one that is ready. -/
theorem scriptedRunsAlwaysGoOn : Obligations.ScriptedRunsAlwaysGoOn := by
  intro n r hinv hfits
  obtain ⟨e, he, hready, -⟩ := runScripted_ready ⟨hinv, hfits⟩ n
  exact ⟨e, he, hready⟩

/-- Settles O58: the answer tells the engine's status, and each turn takes from the head of the queue. -/
theorem nextOutputOutcomes : Obligations.NextOutputOutcomes := by
  refine ⟨fun σ take n r e o h => ?_, fun σ take n r hs => ?_, fun n r e o h => ?_⟩
  · obtain ⟨-, rfl⟩ := nextOutput_inv h
    exact ⟨fun v => nextAnswer_some, nextAnswer_none, fun c p a => nextAnswer_failed,
      nextAnswer_unfinished⟩
  · simp only [nextOutput, finishOutput_outputTaken hs]
  · obtain ⟨hrun, -⟩ := nextOutput_inv h
    have hsupply := repeatStep_awaitStep_supply hrun
    exact hsupply

/-- Settles O59: each step reads and writes its own index alone. -/
theorem enginesAreIndependent : Obligations.EnginesAreIndependent := by
  intro i j es a b hij hi hj
  refine ⟨fun k hk => stepAt_frame hi hk, ?_⟩
  rcases stepAt_inv hi with ⟨hnone, rfl⟩ | ⟨s, t, hs, ht, rfl⟩
  · exact ⟨b, hj, stepAt_absent ((stepAt_frame hj hij).trans hnone)⟩
  · have hframe := stepAt_frame hi hij.symm
    rcases stepAt_inv hj with ⟨hnone, rfl⟩ | ⟨s', t', hs', ht', rfl⟩
    · exact ⟨es, stepAt_absent (hframe.symm.trans hnone), hi⟩
    · have hj' : stepAt j es = .next (es.set j t') := stepAt_present (hframe.symm.trans hs') ht'
      refine ⟨_, hj', ?_⟩
      rw [stepAt_present ((stepAt_frame hj' hij).trans hs) ht, List.set_comm _ _ hij.symm]

/-- Settles O60: the start is made member by member, and the pass goes on as `next_output`'s answer says. -/
theorem ringPassThreadsTheSignal : Obligations.RingPassThreadsTheSignal := by
  refine ⟨fun es v => ⟨rfl, rfl, fun k => List.getElem?_map ..⟩, fun fuel r m o e hm h => ?_⟩
  have hpass := ringPass_of_nextOutput hm h
  obtain ⟨-, rfl⟩ := nextOutput_inv h
  have hlen : r.next < r.members.length := (List.getElem?_eq_some_iff.1 hm).1
  refine ⟨(r.keep m e.engine).members, ?_, ?_, ?_, ?_, ?_⟩
  · exact List.getElem?_set_self hlen
  · exact fun k hk => List.getElem?_set_ne hk.symm
  · intro v hv
    refine ⟨(nextAnswer_some hv).2, ?_⟩
    rw [hpass, hv]
    simp [ringAnswer, Ring.keep]
  · intro hn
    exact ⟨nextAnswer_none hn, by rw [hpass, hn]; rfl⟩
  · intro c p a hf
    exact ⟨(nextAnswer_failed hf).1, by rw [hpass, hf]; rfl⟩

end Sys2Proof.Machine
end
